-- ==== Sys2Proof/Word.lean ====
section
/-! DEFINITION. The two word types of the engine: bytes of the State and of the two byte streams, and lanes
(spec/00_scope.md R11, R12). -/

namespace Sys2Proof

/-- One byte: an element of the State byte space or of a command or response frame (R11, R20, R62). -/
abbrev Byte := BitVec 8

/-- One 64-bit lane, bit 0 its least significant bit (R11, R21). -/
abbrev Lane := BitVec 64

end Sys2Proof
end

