-- ==== Sys2Proof/Config.lean ====
section
/-! DEFINITION. What is fixed for the machine: the parameters of spec/00_scope.md R8. None is selectable at run
time. The open parameters of R8 (transport, reset_style, T_RESET, T_BYTE, T_PERMUTE) enter no rule and no
definition (R174, 92_eei_decisions.md), so they have no constant here. The two constant ROMs are in
Sys2Proof/Machine/Rom.lean. -/

namespace Sys2Proof

/-- Size of the State in bytes (R8, R20). -/
abbrev Config.STATE_BYTES : Nat := 200

/-- Number of 64-bit lanes (R8). -/
abbrev Config.LANES : Nat := 25

/-- Number of rounds of one permutation (R8). -/
abbrev Config.NR : Nat := 24

/-- The rate in bytes: the part of the State that absorbs input (R8, R23). -/
abbrev Config.RATE : Nat := 136

/-- The capacity in bytes: the part of the State that input never reaches directly (R8, R23). -/
abbrev Config.CAP : Nat := 64

/-- Size of the digest in bytes (R8, R29). -/
abbrev Config.DIGEST_BYTES : Nat := 32

/-- The domain-separation suffix byte (R8, R117). -/
abbrev Config.SUFFIX : Byte := 0x06#8

/-- The final padding byte (R8, R117). -/
abbrev Config.FINAL : Byte := 0x80#8

end Sys2Proof
end

