-- ==== Sys2Proof/Syntax.lean ====
section
/-! DEFINITION. The instructions: one constructor for each row of spec/opcode_table.json, in its order. The three
host commands (spec/30_encoding.md R61) and the five micro-operations of the permutation sequencer (R72). -/

namespace Sys2Proof

/-- A host command or a micro-operation (R18). A micro-operation carries the `RND` field of its control word,
which only IOTA uses (R72). `RND` is 0 to 23: the values 24 to 31 are never generated (R72, R73), and IOTA
has no meaning there (R96), so they are not terms. -/
inductive Instr where
  /-- `RESET`: `reset()` of the source (R111). -/
  | reset
  /-- `UPDATE(data)`: `data` is the payload in stream order, `DATA[0]` first (R65, R113). -/
  | update (data : List Byte)
  /-- `FINALIZE` (R119). -/
  | finalize
  /-- `THETA` (R92). -/
  | theta (rnd : Fin 24)
  /-- `RHO` (R93). -/
  | rho (rnd : Fin 24)
  /-- `PI` (R94). -/
  | pi (rnd : Fin 24)
  /-- `CHI` (R95). -/
  | chi (rnd : Fin 24)
  /-- `IOTA` with round index `rnd` (R96). -/
  | iota (rnd : Fin 24)
  deriving DecidableEq, Repr

/-- The instructions a host can issue: "The command set is closed: RESET, UPDATE and FINALIZE are the only host
operations" (R61). The micro-operations "have no host encoding; the host cannot issue them" (R72). -/
def Instr.isCommand : Instr → Bool
  | .reset => true
  | .update _ => true
  | .finalize => true
  | .theta _ => false
  | .rho _ => false
  | .pi _ => false
  | .chi _ => false
  | .iota _ => false

end Sys2Proof
end

