-- ==== Sys2Proof/WellFormed.lean ====
section
/-! DEFINITION. When an instruction has an encoding (spec/30_encoding.md R65, R71). -/

namespace Sys2Proof

/-- The one check: the payload length of an UPDATE fits its 32-bit `LEN` field, "`0 <= LEN <= 2^32 - 1`" (R65); a
longer input "is sent as several UPDATE commands" (R71). The range of `RND` is in its type. -/
def Instr.wellFormed : Instr → Bool
  | .reset => true
  | .update data => decide (data.length < 2 ^ 32)
  | .finalize => true
  | .theta _ => true
  | .rho _ => true
  | .pi _ => true
  | .chi _ => true
  | .iota _ => true

end Sys2Proof
end

