-- ==== Sys2Proof/Decode.lean ====
section
/-! DEFINITION. The decoder and the encoder of command frames and of sequencer control words
(spec/30_encoding.md R63 to R73), and the reading of an opcode-table word. -/

namespace Sys2Proof

/-! ## Command frames -/

/-- What the decoder makes of the bytes at the head of the command stream. -/
inductive FrameResult where
  /-- A whole frame stands at the head: its command, and the bytes after its last byte (R69). -/
  | complete (i : Instr) (rest : List Byte)
  /-- The frame is not whole yet: no byte at all, or an UPDATE frame cut short (93 I17). -/
  | incomplete
  /-- The byte in the `OPC` position is reserved (R68). -/
  | reserved (opc : Byte)
  deriving DecidableEq, Repr

/-- `LEN = byte1 + 2^8*byte2 + 2^16*byte3 + 2^24*byte4` (R65). -/
def lenOfBytes (b1 b2 b3 b4 : Byte) : Nat :=
  b1.toNat + 2 ^ 8 * b2.toNat + 2 ^ 16 * b3.toNat + 2 ^ 24 * b4.toNat

/-- The bytes after an UPDATE's `OPC`: four length bytes, then `LEN` payload bytes (R63 format C1). -/
def decodeUpdate : List Byte → FrameResult
  | b1 :: b2 :: b3 :: b4 :: tl =>
    if tl.length < lenOfBytes b1 b2 b3 b4 then .incomplete
    else .complete (.update (tl.take (lenOfBytes b1 b2 b3 b4))) (tl.drop (lenOfBytes b1 b2 b3 b4))
  | _ => .incomplete

/-- The command frame at the head of a byte stream (R63, R64, R69). It does not depend on the engine's state. -/
def decodeFrame : List Byte → FrameResult
  | [] => .incomplete
  | opc :: tl =>
    if opc = 0x00#8 then .complete .reset tl
    else if opc = 0x01#8 then decodeUpdate tl
    else if opc = 0x02#8 then .complete .finalize tl
    else .reserved opc

/-! ## Sequencer control words -/

/-- What the decoder makes of a sequencer control word. -/
inductive SeqResult where
  /-- A control word the sequencer issues (R72). -/
  | microOp (i : Instr)
  /-- `STEP` 5 to 7, or `RND` 24 to 31: "never generated" (R72, 93 I9). -/
  | neverGenerated (w : Byte)
  deriving DecidableEq, Repr

/-- `SEQ[2:0] = STEP` (R72). -/
def seqStep (w : Byte) : Nat := w.toNat % 8

/-- `SEQ[7:3] = RND` (R72). -/
def seqRnd (w : Byte) : Nat := w.toNat / 8

/-- The control word `{RND[4:0], STEP[2:0]}` (R72). -/
def seqWord (step rnd : Nat) : Byte := BitVec.ofNat 8 (8 * rnd + step)

/-- The micro-operation of a control word (R72, R77). -/
def decodeSeq (w : Byte) : SeqResult :=
  if h : seqRnd w < 24 then
    match seqStep w with
    | 0 => .microOp (.theta ⟨seqRnd w, h⟩)
    | 1 => .microOp (.rho ⟨seqRnd w, h⟩)
    | 2 => .microOp (.pi ⟨seqRnd w, h⟩)
    | 3 => .microOp (.chi ⟨seqRnd w, h⟩)
    | 4 => .microOp (.iota ⟨seqRnd w, h⟩)
    | _ => .neverGenerated w
  else .neverGenerated w

/-! ## The encoder -/

/-- The four `LEN` bytes of a payload length, least significant first (R63, R65). -/
def bytesOfLen (n : Nat) : List Byte :=
  [BitVec.ofNat 8 n, BitVec.ofNat 8 (n / 2 ^ 8), BitVec.ofNat 8 (n / 2 ^ 16), BitVec.ofNat 8 (n / 2 ^ 24)]

/-- The bytes of an instruction: a command frame for a host command (R63, R64), the one control word for a
micro-operation (R72). -/
def encode : Instr → List Byte
  | .reset => [0x00#8]
  | .update data => 0x01#8 :: bytesOfLen data.length ++ data
  | .finalize => [0x02#8]
  | .theta rnd => [seqWord 0 rnd]
  | .rho rnd => [seqWord 1 rnd]
  | .pi rnd => [seqWord 2 rnd]
  | .chi rnd => [seqWord 3 rnd]
  | .iota rnd => [seqWord 4 rnd]

/-- The control word after `w` in the fixed order of R72: `STEP` 0 to 4 within a round, rounds 0 to 23; none after
IOTA of round 23, the last of the 120. -/
def nextSeqWord (w : Byte) : Option Byte :=
  if seqStep w < 4 then some (seqWord (seqStep w + 1) (seqRnd w))
  else if seqRnd w < 23 then some (seqWord 0 (seqRnd w + 1))
  else none

/-! ## Words of the opcode table

The table numbers two separate code spaces with the same small numbers: the `OPC` byte of a command frame and the
control word of the sequencer (R77). A table word is read as a command when its first byte is an operation code of
R64, and as a control word otherwise. notes/assumptions/4.md. -/

/-- The bytes of a table word: one byte, or for an UPDATE header the frame of `5 + LEN` bytes (R69), the bits above
`nbits` being 0. -/
def tableBytes (nbits w : Nat) : List Byte :=
  let v := w % 2 ^ nbits
  if v % 256 = 1 then
    (List.range (5 + v / 256 % 2 ^ 32)).map fun k => BitVec.ofNat 8 (v / 256 ^ k)
  else [BitVec.ofNat 8 v]

/-- The control word a table word is, when it is not a command (R72). -/
def tableSeqWord (nbits w : Nat) : Byte := BitVec.ofNat 8 (w % 2 ^ nbits)

/-- Whether a table word's first byte is an operation code of R64. -/
def tableIsCommand (nbits w : Nat) : Bool := decide (w % 2 ^ nbits % 256 ≤ 2)

/-- The instruction the decoder reads from a table word, none where it refuses. -/
def decodeTableWord (nbits w : Nat) : Option Instr :=
  if tableIsCommand nbits w then
    match decodeFrame (tableBytes nbits w) with
    | .complete i _ => some i
    | .incomplete => none
    | .reserved _ => none
  else
    match decodeSeq (tableSeqWord nbits w) with
    | .microOp i => some i
    | .neverGenerated _ => none

end Sys2Proof
end

