-- ==== Sys2Proof/Machine/State.lean ====
section
/-! DEFINITION. The state of the machine, the reasons a step can stop, and the state after reset
(spec/10_state.md R20 to R38, spec/70_reset_and_hazards.md R160). INVENTORY.md, heading State, lists every field. -/

namespace Sys2Proof.Machine

/-- A command in progress whose effect is not yet complete: the busy indication of R35(c) with what is left of the
command (R35(d), the remaining bytes of an UPDATE). -/
inductive Running where
  /-- An accepted UPDATE, with the payload bytes not yet absorbed, in stream order. -/
  | update (rest : List Byte)
  /-- A first FINALIZE whose padding is done and whose permutation has been started (R119). -/
  | finalize
  deriving DecidableEq, Repr

/-- The state of one engine instance and of the ports its host drives. Plain data. -/
structure State where
  /-- The 200-byte State `S` (R20): the listed bytes by address, strictly rising, none zero and none at 200 or
  above; an address that is not listed reads as `0x00`. The lanes `A[0..24]` are views of it (R21). -/
  mem       : List Host.Cell
  /-- The cursor `rate_pos`, 8 bits (R25). -/
  ratePos   : BitVec 8
  /-- The flag `finalized`, 1 bit (R26); it is also the state of the sponge state machine (R27). -/
  finalized : Bool
  /-- Bytes the host has put on the command stream and the engine has not taken, oldest first (R62). -/
  cmdIn     : List Byte
  /-- The bytes taken of a frame that is not yet whole (R35(d), 93 I17). -/
  rx        : List Byte
  /-- The bytes the engine has put on the response stream, oldest first (R62, R66). -/
  respOut   : List Byte
  /-- The sequencer's current control word while a permutation is in progress: round index and step position
  (R33(c), R72). -/
  seq       : Option Byte
  /-- The command in progress between two micro-steps; none when the engine is idle (R35(c)). -/
  running   : Option Running
  /-- The hardware reset input, asserted (R160). -/
  resetIn   : Bool
  deriving DecidableEq, Repr

/-- Why the machine stops. -/
inductive Fault where
  /-- Raised by UPDATE (with at least one payload byte) and by FINALIZE, in the Absorbing state, when `rate_pos` is
  above 135. ABSORB_BYTE and PAD are defined only for `0 <= rate_pos <= 135` (R112, R117), and no state that the
  reset state reaches has such a cursor (R37(a), R164). Safe: the model stops where the spec says nothing. -/
  | cursorOutOfRange
  deriving DecidableEq, Repr

/-- Why a step has no meaning. -/
inductive Refusal where
  /-- Raised by an arm of `exec` whose instruction has no meaning in the model yet. Safe. No arm is in that case. -/
  | notModelled (mnemonic : String)
  /-- Raised by `step` when the byte in the `OPC` position is `0x03` to `0xFF`: "A model must refuse it" (R68).
  Safe. -/
  | reservedOpcode (opc : Byte)
  /-- Raised by `step` when the sequencer's control word is one that is "never generated" (R72, 93 I9). Safe. -/
  | seqNeverGenerated (w : Byte)
  deriving DecidableEq, Repr

/-- The state right after hardware reset (R38, R160): the State all zero, the cursor 0, not finalized, the engine
idle with no partly received frame, and nothing on either stream. -/
def State.reset : State where
  mem := []
  ratePos := 0#8
  finalized := false
  cmdIn := []
  rx := []
  respOut := []
  seq := none
  running := none
  resetIn := false

end Sys2Proof.Machine
end

