-- ==== Sys2Proof/Machine/Flags.lean ====
section
/-! DEFINITION. The engine's one status flag, `finalized`, and the sponge state machine it encodes
(spec/10_state.md R26, R27; spec/41_sponge.md R110). No instruction has condition codes. -/

namespace Sys2Proof.Machine

/-- The two states of the sponge state machine (R110). -/
inductive Phase where
  | absorbing
  | finalized
  deriving DecidableEq, Repr

/-- "`Absorbing` when `finalized = 0`, `Finalized` when `finalized = 1`" (R27). -/
def phase (s : State) : Phase := if s.finalized then .finalized else .absorbing

/-- FINALIZE's write of the flag (R119). -/
def setFinalized (s : State) : State := { s with finalized := true }

/-- RESET's write of the flag (R111). -/
def clearFinalized (s : State) : State := { s with finalized := false }

end Sys2Proof.Machine
end

