-- ==== Sys2Proof/Machine/Rom.lean ====
section
/-! DEFINITION. The two constant ROMs (spec/10_state.md R30, R31, R32). No command, reset or host action writes them;
they are the same in every state, so they are constants and not fields of State. -/

namespace Sys2Proof.Machine

/-- The round-constant ROM `RC[0..23]`, addressed by the round index (R31, R73). -/
def RC : Vector Lane 24 :=
  #v[0x0000000000000001#64, 0x0000000000008082#64, 0x800000000000808A#64, 0x8000000080008000#64,
     0x000000000000808B#64, 0x0000000080000001#64, 0x8000000080008081#64, 0x8000000000008009#64,
     0x000000000000008A#64, 0x0000000000000088#64, 0x0000000080008009#64, 0x000000008000000A#64,
     0x000000008000808B#64, 0x800000000000008B#64, 0x8000000000008089#64, 0x8000000000008003#64,
     0x8000000000008002#64, 0x8000000000000080#64, 0x000000000000800A#64, 0x800000008000000A#64,
     0x8000000080008081#64, 0x8000000000008080#64, 0x0000000080000001#64, 0x8000000080008008#64]

/-- The rotation-offset ROM `RHO[0..24]`, addressed by the lane index `x + 5y` (R32, R73). -/
def RHO : Vector (Fin 64) 25 :=
  #v[0, 1, 62, 28, 27, 36, 44, 6, 55, 20, 3, 10, 43, 25, 39, 41, 45, 15, 21, 8, 18, 2, 61, 56, 14]

/-- One step of the 8-bit register of the generating algorithm of R31: shift left, and reduce by `0x171`. -/
def rcRegisterStep (r : Nat) : Nat :=
  if 2 * r < 256 then 2 * r else 2 * r ^^^ 0x171

/-- The constant the generating algorithm of R31 makes from the register `r` by its seven inner steps `j .. 6`, and
the register after them (`n` inner steps are left). -/
def rcGenerate : (n j r : Nat) → Lane → Lane × Nat
  | 0, _, r, c => (c, r)
  | n + 1, j, r, c =>
    rcGenerate n (j + 1) (rcRegisterStep r) (if r % 2 = 1 then c ||| (1#64 <<< (2 ^ j - 1)) else c)

/-- The first `n` round constants the generating algorithm of R31 gives from the register `r`. -/
def rcTable : (n r : Nat) → List Lane
  | 0, _ => []
  | n + 1, r =>
    let step := rcGenerate 7 0 r 0#64
    step.1 :: rcTable n step.2

/-- The `n` steps `t, t+1, ..` of the generating walk of R32 from the coordinates `(x, y)`: the lane index visited
and its offset. -/
def rhoWalk : (n t x y : Nat) → List (Nat × Nat)
  | 0, _, _, _ => []
  | n + 1, t, x, y => (x + 5 * y, (t + 1) * (t + 2) / 2 % 64) :: rhoWalk n (t + 1) y ((2 * x + 3 * y) % 5)

end Sys2Proof.Machine
end

