-- ==== Sys2Proof/Machine/Keccak.lean ====
section
/-! DEFINITION. The permutation engine as pure functions on 25-lane arrays: rol64, THETA, RHO, PI, CHI, IOTA, ROUND,
PERMUTE (spec/40_permutation.md R90 to R98). "Pure function: same input always yields same output; no side effects; no
failure conditions" (R90). Every definition reads only its argument, never a partly updated array (R14, R169, R170). -/

namespace Sys2Proof.Machine

/-- A whole 25-lane array, lane `i` at index `i` (R14, R21). -/
abbrev Lanes := Vector Lane 25

/-- The lane index of coordinates `(x, y)`: `i = x + 5*y` (R22). -/
def laneIndex (x y : Fin 5) : Fin 25 := ⟨x.val + 5 * y.val, by omega⟩

/-- `x = i mod 5` (R22). -/
def xOf (i : Fin 25) : Fin 5 := ⟨i.val % 5, by omega⟩

/-- `y = i div 5` (R22). -/
def yOf (i : Fin 25) : Fin 5 := ⟨i.val / 5, by omega⟩

/-- `A[x, y]` (R12, R22). -/
def at2 (A : Lanes) (x y : Fin 5) : Lane := A[laneIndex x y]

/-- The array whose lane `(x, y)` is `f x y`, for all `x, y` (R14). -/
def ofCoords (f : Fin 5 → Fin 5 → Lane) : Lanes := Vector.ofFn fun i => f (xOf i) (yOf i)

/-- Rotation of a lane toward the most significant bit by `n`, `0 <= n <= 63` (R91): the identity for 0, and never a
shift by 64. -/
def rol64 (v : Lane) (n : Nat) : Lane :=
  if n = 0 then v else (v <<< n) ||| (v >>> (64 - n))

/-- The column parities `C[x] = A[x,0] ^ A[x,1] ^ A[x,2] ^ A[x,3] ^ A[x,4]` of THETA's input (R92). -/
def columnParity (A : Lanes) : Vector Lane 5 :=
  Vector.ofFn fun x => at2 A x 0 ^^^ at2 A x 1 ^^^ at2 A x 2 ^^^ at2 A x 3 ^^^ at2 A x 4

/-- `D[x] = C[(x + 4) mod 5] ^ rol64(C[(x + 1) mod 5], 1)` (R92); `+` on `Fin 5` is modulo 5. -/
def thetaD (C : Vector Lane 5) : Vector Lane 5 :=
  Vector.ofFn fun x => C[x + 4] ^^^ rol64 C[x + 1] 1

/-- THETA (R92). -/
def theta (A : Lanes) : Lanes :=
  let D := thetaD (columnParity A)
  ofCoords fun x y => at2 A x y ^^^ D[x]

/-- RHO (R93): lane `i` is rotated by `RHO[i]`. -/
def rho (A : Lanes) : Lanes := Vector.ofFn fun i => rol64 A[i] RHO[i].val

/-- PI (R94), in its gather form `A'[x, y] = A[(x + 3*y) mod 5, x]`. -/
def pi (A : Lanes) : Lanes := ofCoords fun x y => at2 A (x + 3 * y) x

/-- CHI (R95): the complement applies to lane `x + 1` only, before the `&`. -/
def chi (A : Lanes) : Lanes :=
  ofCoords fun x y => at2 A x y ^^^ (~~~ at2 A (x + 1) y &&& at2 A (x + 2) y)

/-- IOTA (R96): `RC[r]` into lane `(0, 0)` only. -/
def iota (A : Lanes) (r : Fin 24) : Lanes := A.set 0 (A[0] ^^^ RC[r])

/-- ROUND (R97): the five steps in order, each on the complete output of the one before. -/
def round (A : Lanes) (r : Fin 24) : Lanes := iota (chi (pi (rho (theta A)))) r

/-- PERMUTE (R98): rounds 0, 1, .., 23 in order. Irreducible for the elaborator only; the kernel evaluates it. -/
@[irreducible] def permute (A : Lanes) : Lanes := (List.finRange 24).foldl round A

end Sys2Proof.Machine
end

