-- ==== Sys2Proof/Machine/Operands.lean ====
section
/-! DEFINITION. The operands of a response: status codes, and response frames with the digest operand
(spec/30_encoding.md R66, R67). The operands of a command are assembled by the decoder (R65). -/

namespace Sys2Proof.Machine

/-- The two statuses a response can carry (R28, R66). -/
inductive Status where
  | ok
  | invalidState
  deriving DecidableEq, Repr

/-- The status byte of R66. -/
def Status.code : Status → Byte
  | .ok => 0x00#8
  | .invalidState => 0x01#8

/-- What a command returns (R60, R66). -/
inductive Response where
  /-- Format P0, the response to RESET and UPDATE. -/
  | status (st : Status)
  /-- Format P1, the response to FINALIZE: `OK` and the digest bytes, `DIGEST[0]` first. -/
  | digest (d : List Byte)
  deriving DecidableEq, Repr

/-- The bytes of a response frame (R66, R67). "The `STATUS` of a `P1` frame is always `OK`". -/
def Response.frame : Response → List Byte
  | .status st => [st.code]
  | .digest d => Status.ok.code :: d

end Sys2Proof.Machine
end

