-- ==== Sys2Proof/Machine/Ops.lean ====
section
/-! DEFINITION. The named operations the meanings share: the State byte space and its lane view
(spec/20_memory.md R40 to R57), the responses and the one exception (spec/60_exceptions.md R140 to R145), the helpers
ABSORB_BYTE, PAD, PERMUTE_STATE and DIGEST (spec/40_permutation.md R99, spec/41_sponge.md R112, R117, R121), and
hardware reset (spec/70_reset_and_hazards.md R160, R163). -/

namespace Sys2Proof.Machine

/-! ## The State byte space -/

/-- What an address that is not listed reads as: RESET and hardware reset leave "all `0x00`" (R38). -/
def Memory.unlisted : Byte := 0x00#8

/-- The canonical form: addresses strictly rising from `lo`, below 200, and no listed byte equal to what an
unlisted address reads as. -/
def Memory.wfFrom (lo : Nat) : List Host.Cell → Bool
  | [] => true
  | (a, v) :: m => decide (lo ≤ a) && decide (a < Config.STATE_BYTES) && (v != Memory.unlisted) && wfFrom (a + 1) m

/-- The canonical form of the State byte space: equal memories are equal lists. -/
def Memory.wf (m : List Host.Cell) : Bool := Memory.wfFrom 0 m

/-- `S[k]` (R12, R57). -/
def Memory.read : List Host.Cell → Nat → Byte
  | [], _ => Memory.unlisted
  | (a, v) :: m, k => if a = k then v else Memory.read m k

/-- `S[k] <- v` (R12, R57). The canonical form is kept: an entry equal to the unlisted byte is removed. -/
def Memory.write : List Host.Cell → Nat → Byte → List Host.Cell
  | [], k, v => if v = Memory.unlisted then [] else [(k, v)]
  | (a, x) :: m, k, v =>
    if k < a then (if v = Memory.unlisted then (a, x) :: m else (k, v) :: (a, x) :: m)
    else if a = k then (if v = Memory.unlisted then m else (k, v) :: m)
    else (a, x) :: Memory.write m k v

/-- The listed form of the bytes `T lo, .., T (lo + n - 1)` at the addresses `lo, .., lo + n - 1`. -/
def Memory.tabulate (T : Nat → Byte) : (n lo : Nat) → List Host.Cell
  | 0, _ => []
  | n + 1, lo =>
    if T lo = Memory.unlisted then Memory.tabulate T n (lo + 1) else (lo, T lo) :: Memory.tabulate T n (lo + 1)

/-! ## The lane view: one storage, two views (R21, R42 to R45) -/

/-- The lane at bytes `8i .. 8i+7` of a byte array, byte `8i` least significant (R43). -/
def laneOfBytes (T : Nat → Byte) (i : Nat) : Lane :=
  T (8 * i + 7) ++ T (8 * i + 6) ++ T (8 * i + 5) ++ T (8 * i + 4) ++ T (8 * i + 3) ++ T (8 * i + 2) ++ T (8 * i + 1) ++ T (8 * i)

/-- `B2L` of a byte array (R43). -/
def b2lOf (T : Nat → Byte) : Lanes := Vector.ofFn fun i => laneOfBytes T i.val

/-- Byte `k` of `L2B(A)`: `L2B(A)[8i+j] = A[i][8j+7 : 8j]` (R44). -/
def byteOfLanes (A : Lanes) (k : Nat) : Byte := (A.getD (k / 8) 0#64).extractLsb' (8 * (k % 8)) 8

/-- `B2L(S)` (R43). -/
def b2l (m : List Host.Cell) : Lanes := b2lOf (Memory.read m)

/-- `L2B(A)` (R44), as the State byte space that holds it. Irreducible for the elaborator only, so that no unification
computes 200 bytes; the kernel evaluates it. -/
@[irreducible] def l2b (A : Lanes) : List Host.Cell := Memory.tabulate (byteOfLanes A) Config.STATE_BYTES 0

/-! ## The primitives of R57 -/

/-- `MemRead(addr, 1)`. -/
def memRead1 (addr : Fin 200) (s : State) : Byte := Memory.read s.mem addr.val

/-- `MemRead(8i, 8) = A[i]`. -/
def memRead8 (i : Fin 25) (s : State) : Lane := laneOfBytes (Memory.read s.mem) i.val

/-- `MemWrite(addr, 1, v)`. -/
def memWrite1 (addr : Fin 200) (v : Byte) (s : State) : State := { s with mem := Memory.write s.mem addr.val v }

/-- `MemWrite(8i, 8, v)`: `S[8i+j] <- v[8j+7 : 8j]` for `j = 0 .. 7`. -/
def memWrite8 (i : Fin 25) (v : Lane) (s : State) : State :=
  { s with mem := (List.range 8).foldl (fun m j => Memory.write m (8 * i.val + j) (v.extractLsb' (8 * j) 8)) s.mem }

/-- The byte XOR `S[k] <- S[k] ^ v`, the store of the sponge controller (R48, R112, R117). -/
def xorByte (k : Nat) (v : Byte) (s : State) : State :=
  { s with mem := Memory.write s.mem k (Memory.read s.mem k ^^^ v) }

/-- Replace all 25 lanes at once by a function of the 25 lanes, `S <- L2B(f(B2L(S)))`: how every micro-operation and
PERMUTE_STATE act on the State (R24, R48, R99). -/
def mapLanes (f : Lanes → Lanes) (s : State) : State := { s with mem := l2b (f (b2l s.mem)) }

/-! ## Responses, and the one exception -/

/-- Put a response frame on the response stream: one per command, in the order of the commands (R66, R70). -/
def respond (r : Response) (s : State) : State := { s with respOut := s.respOut ++ r.frame }

/-- `raise InvalidStateError`, taking the one exception (R140 to R144): "no state is saved anywhere"; `S`, `rate_pos`
and `finalized` keep their values; there is no handler, no vector, no mode change and no mask; the payload, already
taken from the command stream, is discarded; the response is `INVALID_STATE`; and the engine goes on with the next
command. "There is no return instruction because there is no handler" (R145). -/
def raiseInvalidState (s : State) : State := respond (.status .invalidState) s

/-! ## The helpers of the sponge controller -/

/-- `0 <= rate_pos <= 135`, the range in which ABSORB_BYTE and PAD are defined (R112, R117). -/
def cursorInRange (s : State) : Bool := decide (s.ratePos.toNat < Config.RATE)

/-- PERMUTE_STATE: `S <- L2B(PERMUTE(B2L(S)))` (R99). -/
def permuteState (s : State) : State := mapLanes permute s

/-- The first two writes of ABSORB_BYTE: the XOR at the cursor, and the post-increment (R112). -/
def storeByte (s : State) (v : Byte) : State :=
  let s1 := xorByte s.ratePos.toNat v s
  { s1 with ratePos := s1.ratePos + 1#8 }

/-- Whether the block is full: the transient value 136 of the cursor (R25, R112). -/
def blockFull (s : State) : Bool := decide (s.ratePos = 136#8)

/-- The cursor back at the start of the rate region (R112). -/
def clearCursor (s : State) : State := { s with ratePos := 0#8 }

/-- ABSORB_BYTE (R112): "XOR it into `State[cursor]`, increment cursor; whenever cursor reaches 136, invoke the
Permutation Core on the full 25-lane interpretation of State, write the permuted lanes back, and reset cursor to 0." -/
def absorbByte (s : State) (v : Byte) : State :=
  let s1 := storeByte s v
  if blockFull s1 then clearCursor (permuteState s1) else s1

/-- The bytes of a payload absorbed in stream order: "UPDATE is a left fold of ABSORB_BYTE over its payload"
(R113, R116). -/
def absorb (data : List Byte) (s : State) : State := data.foldl absorbByte s

/-- PAD (R117): `0x06` at the cursor, then `0x80` at 135; the second reads the result of the first when the two are
the same byte (R118, R171). -/
def pad (s : State) : State :=
  xorByte (Config.RATE - 1) Config.FINAL (xorByte s.ratePos.toNat Config.SUFFIX s)

/-- DIGEST (R121): `DIGEST[j] = S[j]`, `j = 0 .. 31`, a read with no side effect (R50). -/
def digest (s : State) : List Byte := (List.range Config.DIGEST_BYTES).map (Memory.read s.mem)

/-- The write of RESET: the State all zero, the cursor 0, the flag 0 (R111). -/
def zeroState (s : State) : State := clearFinalized (clearCursor { s with mem := [] })

/-! ## Hardware reset, and what the host can do from outside -/

/-- Hardware reset, asserted and released (R160, R163): the reset state; a command in progress is abandoned with no
response and a partly received frame is forgotten. What stands on the two streams outside the engine stays: the first
byte the engine takes after release is the next on the command stream. -/
def hardwareReset (s : State) : State := { State.reset with cmdIn := s.cmdIn, respOut := s.respOut }

/-- The host puts bytes on the command stream (R62, R152). -/
def hostSend (bytes : List Byte) (s : State) : State := { s with cmdIn := s.cmdIn ++ bytes }

/-- The host asserts the hardware reset input; it may do so at any time (R152, R163). -/
def hostAssertReset (s : State) : State := { s with resetIn := true }

/-! ## Outcomes -/

/-- Go on from a next state; a fault or a refusal ends the run. -/
def onNext (o : Host.Outcome State Fault Refusal) (f : State → Host.Outcome State Fault Refusal) :
    Host.Outcome State Fault Refusal :=
  match o with
  | .next s => f s
  | .fault r => .fault r
  | .refused r => .refused r

end Sys2Proof.Machine
end

