-- ==== Sys2Proof/Machine/MicroOps.lean ====
section
/-! DEFINITION. The meanings of the five micro-operations of the permutation engine (spec/40_permutation.md R92 to
R96). None reads or writes `rate_pos` or `finalized`, none can raise an exception, and none has a response
(R72, R90). The `RND` field is used by IOTA only (R72). -/

namespace Sys2Proof.Machine

/-- THETA on the 25 lanes of the State (R92). -/
def execTheta (_rnd : Fin 24) (s : State) : Host.Outcome State Fault Refusal := .next (mapLanes theta s)

/-- RHO on the 25 lanes of the State (R93). -/
def execRho (_rnd : Fin 24) (s : State) : Host.Outcome State Fault Refusal := .next (mapLanes rho s)

/-- PI on the 25 lanes of the State (R94). -/
def execPi (_rnd : Fin 24) (s : State) : Host.Outcome State Fault Refusal := .next (mapLanes pi s)

/-- CHI on the 25 lanes of the State (R95). -/
def execChi (_rnd : Fin 24) (s : State) : Host.Outcome State Fault Refusal := .next (mapLanes chi s)

/-- IOTA on lane 0 of the State, with the ROM word `RC[rnd]` (R96, R73). -/
def execIota (rnd : Fin 24) (s : State) : Host.Outcome State Fault Refusal := .next (mapLanes (fun A => iota A rnd) s)

end Sys2Proof.Machine
end

