-- ==== Sys2Proof/Machine/Sponge.lean ====
section
/-! DEFINITION. The meanings of the three host commands (spec/41_sponge.md R110 to R123). Each is one atomic step of
the engine (spec/00_scope.md R19, spec/20_memory.md R49). -/

namespace Sys2Proof.Machine

/-- RESET (R111): "zeroes State, cursor = 0, finalized = false"; always available. -/
def execReset (s : State) : Host.Outcome State Fault Refusal :=
  .next (respond (.status .ok) (zeroState s))

/-- UPDATE (R113, R114, R115). The `finalized` test comes first, whatever the length (R147). -/
def execUpdate (data : List Byte) (s : State) : Host.Outcome State Fault Refusal :=
  if s.finalized then .next (raiseInvalidState s)
  else if cursorInRange s || data.isEmpty then .next (respond (.status .ok) (absorb data s))
  else .fault .cursorOutOfRange

/-- FINALIZE (R119, R120): in the Absorbing state PAD, one PERMUTE_STATE, and the flag; in both states the digest. The
cursor is not written (R122). -/
def execFinalize (s : State) : Host.Outcome State Fault Refusal :=
  if s.finalized then .next (respond (.digest (digest s)) s)
  else if cursorInRange s then
    let t := setFinalized (permuteState (pad s))
    .next (respond (.digest (digest t)) t)
  else .fault .cursorOutOfRange

end Sys2Proof.Machine
end

