-- ==== Sys2Proof/Machine/Dispatch.lean ====
section
/-! DEFINITION. One arm per constructor of Instr. -/

namespace Sys2Proof.Machine

/-- The effect of one instruction. -/
def exec (i : Instr) (s : State) : Host.Outcome State Fault Refusal :=
  match i with
  | .reset => Sys2Proof.Machine.execReset s
  | .update data => Sys2Proof.Machine.execUpdate data s
  | .finalize => Sys2Proof.Machine.execFinalize s
  | .theta rnd => Sys2Proof.Machine.execTheta rnd s
  | .rho rnd => Sys2Proof.Machine.execRho rnd s
  | .pi rnd => Sys2Proof.Machine.execPi rnd s
  | .chi rnd => Sys2Proof.Machine.execChi rnd s
  | .iota rnd => Sys2Proof.Machine.execIota rnd s

end Sys2Proof.Machine
end

