-- ==== Sys2Proof/Machine/Sequencer.lean ====
section
/-! DEFINITION. How the engine goes from one instruction to the next: taking a frame from the command stream
(spec/30_encoding.md R69, R70), the permutation sequencer and its control words (R72, spec/10_state.md R33), and the
micro-steps of a command in progress (R35(c), (d)). A command may be taken as one atomic step (spec/00_scope.md R19) or
carried out in micro-steps with the permutation run by the sequencer (R101); the two agree. -/

namespace Sys2Proof.Machine

/-- One step of the sequencer: the micro-operation of the current control word, then the next control word. -/
def stepSeq (w : Byte) (s : State) : Host.Outcome State Fault Refusal :=
  match decodeSeq w with
  | .microOp i => onNext (exec i s) fun t => .next { t with seq := nextSeqWord w }
  | .neverGenerated v => .refused (.seqNeverGenerated v)

/-- The sequencer about to issue the first of the 120 control words of a permutation (R72). -/
def startSeq (s : State) : State := { s with seq := some (seqWord 0 0) }

/-- An idle engine at its command stream (R69, R70): a whole frame is taken and handed to `start`; of a frame that is
not whole the engine takes what is there and waits for the rest (93 I17), and with nothing there it only waits
(R161). -/
def stepCommand (start : Instr → State → Host.Outcome State Fault Refusal) (s : State) :
    Host.Outcome State Fault Refusal :=
  match decodeFrame (s.rx ++ s.cmdIn) with
  | .complete i rest => start i { s with rx := [], cmdIn := rest }
  | .incomplete => .next { s with rx := s.rx ++ s.cmdIn, cmdIn := [] }
  | .reserved opc => .refused (.reservedOpcode opc)

/-- One micro-step of a command in progress whose permutation, if it needed one, is over: the next payload byte of
an UPDATE (R112), or the end of the command with its response (R113, R119). -/
def resume (c : Running) (s : State) : Host.Outcome State Fault Refusal :=
  match c with
  | .update [] => .next (respond (.status .ok) { s with running := none })
  | .update (v :: rest) =>
    if cursorInRange s then
      let s1 := { storeByte s v with running := some (.update rest) }
      .next (if blockFull s1 then startSeq (clearCursor s1) else s1)
    else .fault .cursorOutOfRange
  | .finalize =>
    let t := setFinalized { s with running := none }
    .next (respond (.digest (digest t)) t)

/-- The first micro-step of an instruction: the `finalized` test (R115, R120, R147), and what the command does before
it first absorbs or permutes. -/
def begin (i : Instr) (s : State) : Host.Outcome State Fault Refusal :=
  match i with
  | .reset => exec .reset s
  | .update data =>
    if s.finalized then .next (raiseInvalidState s) else .next { s with running := some (.update data) }
  | .finalize =>
    if s.finalized then .next (respond (.digest (digest s)) s)
    else if cursorInRange s then .next (startSeq { pad s with running := some .finalize })
    else .fault .cursorOutOfRange
  | .theta rnd => exec (.theta rnd) s
  | .rho rnd => exec (.rho rnd) s
  | .pi rnd => exec (.pi rnd) s
  | .chi rnd => exec (.chi rnd) s
  | .iota rnd => exec (.iota rnd) s

/-- One step, with `start` saying what happens when a whole frame is taken. The reset input wins over everything
(R147, R163); a permutation in progress runs on, then the command in progress (R167); only an idle engine takes from
the command stream (R70). -/
def stepWith (start : Instr → State → Host.Outcome State Fault Refusal) (s : State) :
    Host.Outcome State Fault Refusal :=
  if s.resetIn then .next (hardwareReset s)
  else
    match s.seq, s.running with
    | some w, _ => stepSeq w s
    | none, some c => resume c s
    | none, none => stepCommand start s

/-- The micro-step machine: every command is carried out in micro-steps. -/
def microStep (s : State) : Host.Outcome State Fault Refusal := stepWith begin s

/-- `n` micro-steps, ending at the first fault or refusal. -/
def microRun : Nat → State → Host.Outcome State Fault Refusal
  | 0, s => .next s
  | n + 1, s => onNext (microStep s) (microRun n)

end Sys2Proof.Machine
end

