-- ==== Sys2Proof/Machine/Step.lean ====
section
/-! DEFINITION. One step of the machine, and placing an instruction where the next step takes it. -/

namespace Sys2Proof.Machine

/-- One step: an idle engine takes a whole command frame and executes the command as one atomic step (R19, R49); a
permutation or a command already in progress is carried on. -/
def step (s : State) : Host.Outcome State Fault Refusal := stepWith exec s

/-- The state `s` with a table word placed where the next step takes its instruction: a command frame at the head of
the command stream of an idle engine, or a control word in the sequencer. -/
def State.withFetchWord (s : State) (nbits w : Nat) : State :=
  if tableIsCommand nbits w then
    { s with cmdIn := tableBytes nbits w ++ s.cmdIn, rx := [], seq := none, running := none, resetIn := false }
  else { s with seq := some (tableSeqWord nbits w), resetIn := false }

end Sys2Proof.Machine
end

