-- ==== Sys2Proof/Machine/Message.lean ====
section
/-! DEFINITION. The message-level function of spec/41_sponge.md R124, block by block, with no cursor and no state
machine: what the digest of a message has to be. A 200-byte array is written here as a function of its index. -/

namespace Sys2Proof.Machine

/-- `L2B(PERMUTE(B2L(T)))` (R124). -/
def permuteBytes (T : Nat → Byte) : Nat → Byte := byteOfLanes (permute (b2lOf T))

/-- `T xor_rate X`: "XORs the 136 bytes of `X` into `T[0..135]` and leaves `T[136..199]` unchanged" (R124). -/
def xorRate (T X : Nat → Byte) : Nat → Byte := fun k => if k < Config.RATE then T k ^^^ X k else T k

/-- The bytes `m[136k .. 136k+135]` of a message, `0x00` past its end. -/
def messageBlock (m : List Byte) (k : Nat) : Nat → Byte := fun j => m.getD (Config.RATE * k + j) 0x00#8

/-- `T_k`: `T_0` is 200 zero bytes, `T_{k+1} = L2B(PERMUTE(B2L(T_k xor_rate m[136k .. 136k+135])))` (R124). -/
def blocksAbsorbed (m : List Byte) : Nat → Nat → Byte
  | 0 => fun _ => 0x00#8
  | k + 1 => permuteBytes (xorRate (blocksAbsorbed m k) (messageBlock m k))

/-- The padded last block `P` (R124), with `q = L div 136` and `p = L mod 136`. -/
def paddedBlock (m : List Byte) : Nat → Byte := fun j =>
  messageBlock m (m.length / Config.RATE) j
    ^^^ (if j = m.length % Config.RATE then Config.SUFFIX else 0x00#8)
    ^^^ (if j = Config.RATE - 1 then Config.FINAL else 0x00#8)

/-- `T_final` (R124). -/
def messageFinal (m : List Byte) : Nat → Byte :=
  permuteBytes (xorRate (blocksAbsorbed m (m.length / Config.RATE)) (paddedBlock m))

/-- The digest of a message: `T_final[0 .. 31]` (R124), "SHA3-256 of `m`". -/
def messageDigest (m : List Byte) : List Byte := (List.range Config.DIGEST_BYTES).map (messageFinal m)

end Sys2Proof.Machine
end

