-- ==== Sys2Proof/Safety.lean ====
section
/-! DEFINITION. What counts as a safe state and a safe run, in the terms the statements use: the invariant between steps
(spec/10_state.md R37), command sequences and their history (R37(c), (d), spec/41_sponge.md R124), and what an
instruction leaves unchanged. -/

namespace Sys2Proof.Safety

open Sys2Proof.Machine

/-- The invariant that every step keeps. -/
structure StateInv (s : State) : Prop where
  /-- The State byte space is in canonical form. -/
  memWf : Memory.wf s.mem = true
  /-- "`0 <= rate_pos <= 135`" (R25, R37(a)). -/
  cursor : s.ratePos.toNat ≤ 135
  /-- What was taken of a frame is not a whole frame and does not begin with a reserved byte (R69, R70). -/
  rxPartial : decodeFrame s.rx = .incomplete
  /-- The sequencer holds only control words it generates (R72). -/
  seqGenerated : ∀ w, s.seq = some w → ∃ i, decodeSeq w = .microOp i
  /-- A command in progress was accepted in the Absorbing state, which it leaves only at its end (R110). -/
  runningAbsorbing : s.running ≠ none → s.finalized = false

/-- An idle engine: no command and no permutation in progress, and the reset input not asserted (R35(c), R167). -/
structure Idle (s : State) : Prop where
  noReset : s.resetIn = false
  noSeq : s.seq = none
  noRunning : s.running = none

/-- The input side and the sequencing state are the same in both states. -/
structure SamePorts (s t : State) : Prop where
  cmdIn : t.cmdIn = s.cmdIn
  rx : t.rx = s.rx
  seq : t.seq = s.seq
  running : t.running = s.running
  resetIn : t.resetIn = s.resetIn

/-- Every byte of the State byte space outside `stored` reads the same in both states. -/
def SameBytesOutside (stored : Nat → Prop) (s t : State) : Prop :=
  ∀ a : Nat, a < 200 → ¬ stored a → Memory.read t.mem a = Memory.read s.mem a

/-- Lane `(x, y)` of the State (R21, R22). -/
def laneAt (s : State) (x y : Fin 5) : Lane := memRead8 (laneIndex x y) s

/-- What a micro-operation leaves unchanged: all but the lanes (R24, R90). -/
structure OnlyLanesChange (s t : State) : Prop where
  ratePos : t.ratePos = s.ratePos
  finalized : t.finalized = s.finalized
  respOut : t.respOut = s.respOut
  ports : SamePorts s t

/-- The lane-by-lane exclusive or of two arrays (R102). -/
def xorLanes (A B : Lanes) : Lanes := ofCoords fun x y => at2 A x y ^^^ at2 B x y

/-- The array of 25 zero lanes. -/
def zeroLanes : Lanes := ofCoords fun _ _ => 0#64

/-- The number of set bits of a lane. -/
def laneBits (v : Lane) : Nat := ∑ k : Fin 64, if v.getLsbD k.val then 1 else 0

/-- The number of set bits of a 25-lane array (R102). -/
def setBits (A : Lanes) : Nat := ∑ x : Fin 5, ∑ y : Fin 5, laneBits (at2 A x y)

/-- The bytes `X` XORed into the State at the addresses from `lo` on, and every other byte as in `s`: what UPDATE
stores before any permutation (R112). -/
def XoredFrom (lo : Nat) (X : List Byte) (s : State) (m : List Host.Cell) : Prop :=
  ∀ a < 200, Memory.read m a = Memory.read s.mem a ^^^ (if lo ≤ a then X.getD (a - lo) 0x00#8 else 0x00#8)

/-- The two padding bytes XORed into the State, both into the same byte when the cursor is 135, and every other byte as
in `s` (R117, R118). -/
def Padded (s : State) (m : List Host.Cell) : Prop :=
  ∀ a < 200, Memory.read m a =
    Memory.read s.mem a ^^^ (if a = s.ratePos.toNat then 0x06#8 else 0x00#8) ^^^ (if a = 135 then 0x80#8 else 0x00#8)

/-! ## Command sequences -/

/-- A sequence of instructions, one after the other (R52). -/
def runAll : List Instr → State → Host.Outcome State Fault Refusal
  | [], s => .next s
  | i :: is, s => onNext (exec i s) (runAll is)

/-- The bytes of a sequence of frames (R69). -/
def commandStream (cs : List Instr) : List Byte := cs.flatMap encode

/-- What a session has come to: whether FINALIZE closed it, and the concatenation of the UPDATE payloads accepted
since the last reset (R37(c), R124). -/
structure Session where
  closed : Bool
  message : List Byte
  deriving DecidableEq, Repr

/-- The session after hardware reset. -/
def Session.start : Session := ⟨false, []⟩

/-- A session after one more instruction: RESET restarts it, an UPDATE is accepted while it is open, FINALIZE closes
it (R110). A micro-operation is no command. -/
def Session.after (h : Session) : Instr → Session
  | .reset => Session.start
  | .update data => if h.closed then h else ⟨false, h.message ++ data⟩
  | .finalize => ⟨true, h.message⟩
  | .theta _ => h
  | .rho _ => h
  | .pi _ => h
  | .chi _ => h
  | .iota _ => h

/-- The session a sequence of instructions comes to. -/
def Session.afterAll (cs : List Instr) (h : Session) : Session := cs.foldl Session.after h

/-- The State and the cursor that absorbing a message from the all-zero State with cursor 0 gives (R37(c)). -/
def absorbedFromReset (m : List Byte) : State := absorb m State.reset

/-- The State that FINALIZE gives after absorbing a message (R37(d), R119). -/
def finalizedFromReset (m : List Byte) : State := setFinalized (permuteState (pad (absorbedFromReset m)))

/-- A state is one that a session has come to: the flag says whether the session is closed, the cursor is the number of
bytes accepted modulo 136 (FINALIZE does not write it, R122), and the State is that of absorbing them, or the one
FINALIZE made of them (R37(b), (c), (d)). -/
structure Session.Agrees (h : Session) (s : State) : Prop where
  flag : s.finalized = h.closed
  cursor : s.ratePos.toNat = h.message.length % Config.RATE
  mem : s.mem = if h.closed then (finalizedFromReset h.message).mem else (absorbedFromReset h.message).mem

/-- The response a session owes to the next command (R110); a micro-operation has none (R72). -/
def Session.response (h : Session) : Instr → Option Response
  | .reset => some (.status .ok)
  | .update _ => some (.status (if h.closed then .invalidState else .ok))
  | .finalize => some (.digest (messageDigest h.message))
  | .theta _ => none
  | .rho _ => none
  | .pi _ => none
  | .chi _ => none
  | .iota _ => none

/-- The bytes on the response stream for a sequence of instructions: one response frame for each command, in their
order (R70). -/
def Session.responses : List Instr → Session → List Byte
  | [], _ => []
  | i :: is, h => ((h.response i).map Response.frame).getD [] ++ Session.responses is (h.after i)

/-! ## Micro-steps -/

/-- How many micro-steps a command takes: one to take it, one for each payload byte and 120 for each permutation, one
to end it (R72, R175). A rejected UPDATE, a repeated FINALIZE and RESET take one. -/
def microSteps (i : Instr) (s : State) : Nat :=
  match i with
  | .reset => 1
  | .update data => if s.finalized then 1 else data.length + 120 * ((s.ratePos.toNat + data.length) / 136) + 2
  | .finalize => if s.finalized then 1 else 122
  | .theta _ => 1
  | .rho _ => 1
  | .pi _ => 1
  | .chi _ => 1
  | .iota _ => 1

end Sys2Proof.Safety
end

