-- ==== Sys2Proof/Certificates/Slice0/Obligations.lean ====
section
/-! DEFINITION. The statements for the provers, each a rule of spec/ or a consequence of several. Where a statement rests
on one of the spec's own decisions (92_eei_decisions.md), on a passage it takes from general knowledge
(93_implementation_defined.md section 3) or on a choice of the model, its docstring names the decision, the passage or
the log entry. -/

open Sys2Proof Sys2Proof.Machine Sys2Proof.Safety

/-! ## Encoding -/

/-- Words written out from the encodings of R63, R64 and R72 decode to what they stand for. The bit patterns are the
spec's decisions D2 and D5. -/
def Obligations.WordsOfTheTableDecode : Prop :=
  decodeFrame [0x00#8] = .complete .reset []
  ∧ decodeFrame [0x01#8, 0x03#8, 0x00#8, 0x00#8, 0x00#8, 0x61#8, 0x62#8, 0x63#8, 0x02#8]
      = .complete (.update [0x61#8, 0x62#8, 0x63#8]) [0x02#8]
  ∧ decodeFrame [0x02#8] = .complete .finalize []
  ∧ decodeFrame [0x03#8] = .reserved 0x03#8
  ∧ decodeSeq 0x08#8 = .microOp (.theta 1)
  ∧ decodeSeq 0x01#8 = .microOp (.rho 0)
  ∧ decodeSeq 0x12#8 = .microOp (.pi 2)
  ∧ decodeSeq 0x2B#8 = .microOp (.chi 5)
  ∧ decodeSeq 0xBC#8 = .microOp (.iota 23)
  ∧ decodeSeq 0x05#8 = .neverGenerated 0x05#8
  ∧ decodeSeq 0xC0#8 = .neverGenerated 0xC0#8

/-- Every well-formed host command, whatever stands after its frame, decodes from its encoding with every operand
(R63, R64, R65, R69; the patterns are decision D2). -/
def Obligations.CommandFrameRoundTrip : Prop :=
  ∀ (i : Instr) (rest : List Byte), i.isCommand = true → i.wellFormed = true →
    decodeFrame (encode i ++ rest) = .complete i rest

/-- A frame decodes only from its own encoding: no two byte streams begin with the same command in two spellings, and
what is decoded is a well-formed host command, never a micro-operation (R61, R69, R72; decision D2). -/
def Obligations.FrameDecodesFromItsEncodingOnly : Prop :=
  ∀ (bs rest : List Byte) (i : Instr), decodeFrame bs = .complete i rest →
    i.isCommand = true ∧ i.wellFormed = true ∧ bs = encode i ++ rest

/-- Control words and micro-operations correspond one to one (R72; decision D5). -/
def Obligations.SequencerWordRoundTrip : Prop :=
  ∀ (i : Instr) (w : Byte), (i.isCommand = false ∧ encode i = [w]) ↔ decodeSeq w = .microOp i

/-- The sequencer's order: from the control word of step `j` of round `r`, the next step of the round, then THETA of
the next round, and nothing after IOTA of round 23 (R72; decision D5). -/
def Obligations.SequencerOrder : Prop :=
  ∀ (r : Fin 24) (j : Fin 5),
    nextSeqWord (seqWord j.val r.val) =
      if j.val < 4 then some (seqWord (j.val + 1) r.val)
      else if r.val < 23 then some (seqWord 0 (r.val + 1)) else none

/-! ## Taking an instruction -/

/-- A step of an idle engine with a whole command frame waiting is `exec` of that command, with the frame consumed
(R19, R69, R70). The frames are decision D2; that a step takes a whole command, as R19 allows, is the model's choice,
notes/assumptions/8.md. -/
def Obligations.StepRunsTheWaitingCommand : Prop :=
  ∀ (s : State) (i : Instr) (rest : List Byte), Idle s → i.isCommand = true → i.wellFormed = true →
    s.rx ++ s.cmdIn = encode i ++ rest →
    step s = exec i { s with rx := [], cmdIn := rest }

/-- A step while the sequencer holds the control word of a micro-operation is `exec` of it, after which the sequencer
holds the next control word (R33, R72; decision D5). That a control word is a step of the machine is the model's choice,
notes/assumptions/8.md. -/
def Obligations.StepRunsTheSequencerWord : Prop :=
  ∀ (s t : State) (i : Instr) (w : Byte), s.resetIn = false → s.seq = some w → i.isCommand = false →
    encode i = [w] → exec i s = .next t →
    step s = .next { t with seq := nextSeqWord w }

/-- Of a frame that is not whole the engine takes what is there and waits, changing nothing else; when the host
delivers the rest, the command runs as if the frame had come in one piece (R161, R175, 93 I17). That a wait is a step
to the same engine state is the model's choice, notes/assumptions/6.md. -/
def Obligations.PartialFrameWaitsForTheRest : Prop :=
  ∀ (s : State) (i : Instr) (pre post rest : List Byte), Idle s → i.isCommand = true → i.wellFormed = true →
    encode i = pre ++ post → post ≠ [] → s.rx ++ s.cmdIn = pre →
    step s = .next { s with rx := pre, cmdIn := [] }
    ∧ step (hostSend (post ++ rest) { s with rx := pre, cmdIn := [] }) = exec i { s with rx := [], cmdIn := rest }

/-- While a permutation or a command is in progress nothing is taken from the command stream (R70, R167; decision
D14). The micro-steps are the model's, notes/assumptions/8.md. -/
def Obligations.BusyEngineTakesNoByte : Prop :=
  ∀ s t : State, s.resetIn = false → (s.seq ≠ none ∨ s.running ≠ none) →
    (step s = .next t ∨ microStep s = .next t) →
    t.cmdIn = s.cmdIn ∧ t.rx = s.rx

/-- A reserved operation code is refused: it is neither executed nor stepped over (R68; decision D4). -/
def Obligations.ReservedOpcodeIsRefused : Prop :=
  ∀ (s : State) (opc : Byte) (rest : List Byte), Idle s → s.rx = [] → s.cmdIn = opc :: rest → 3 ≤ opc.toNat →
    step s = .refused (.reservedOpcode opc)

/-- A control word with `STEP` 5 to 7 or `RND` 24 to 31 is refused (R72, R96 corner (a), 93 I9; decision D5). -/
def Obligations.NeverGeneratedControlWordIsRefused : Prop :=
  ∀ (s : State) (w : Byte), s.resetIn = false → s.seq = some w → (5 ≤ w.toNat % 8 ∨ 24 ≤ w.toNat / 8) →
    step s = .refused (.seqNeverGenerated w)

/-- A stream of command frames has the effect of the commands one after the other, and leaves what follows it on the
stream: the left-to-right composition of R52, through the framing of R69 (decision D2). -/
def Obligations.CommandStreamIsTheCompositionOfItsCommands : Prop :=
  ∀ (s : State) (cs : List Instr) (rest : List Byte), StateInv s → Idle s → s.rx = [] →
    (∀ i ∈ cs, i.isCommand = true ∧ i.wellFormed = true) → s.cmdIn = commandStream cs ++ rest →
    Host.Core.run Sys2Proof.core cs.length s = runAll cs { s with cmdIn := rest }

/-! ## The permutation engine

The place of lane `(x, y)` in the State is R22's index `x + 5y`, which the spec takes from general knowledge (G3,
decision D15), and so are the values of the two ROMs (G1, G2): notes/assumptions/2.md. -/

/-- Rotation moves bit `k` to bit `(k + n) mod 64`, and by 0 it is the identity (R91; the direction is G4). -/
def Obligations.Rol64MovesEachBit : Prop :=
  ∀ (v : Lane) (n k : Nat), n < 64 → k < 64 →
    (rol64 v n).getLsbD ((k + n) % 64) = v.getLsbD k ∧ rol64 v 0 = v

/-- THETA (R92): with `C[x]` the parity of the column `x` of the input, lane `(x, y)` becomes
`A[x,y] ^ C[x-1] ^ rol64(C[x+1], 1)`, the indices modulo 5, for every round index, with nothing but the lanes changed. -/
def Obligations.ThetaXorsTheColumnParities : Prop :=
  ∀ (rnd : Fin 24) (s : State), ∃ t, exec (.theta rnd) s = .next t ∧ OnlyLanesChange s t ∧
    ∀ C : Fin 5 → Lane,
      (∀ x, C x = laneAt s x 0 ^^^ laneAt s x 1 ^^^ laneAt s x 2 ^^^ laneAt s x 3 ^^^ laneAt s x 4) →
      ∀ x y, laneAt t x y = laneAt s x y ^^^ (C (x - 1) ^^^ rol64 (C (x + 1)) 1)

/-- RHO (R93): every lane is rotated by its own offset of the ROM, and lane `(0, 0)` is unchanged; nothing but the
lanes changes. -/
def Obligations.RhoRotatesEachLane : Prop :=
  ∀ (rnd : Fin 24) (s : State), ∃ t, exec (.rho rnd) s = .next t ∧ OnlyLanesChange s t
    ∧ laneAt t 0 0 = laneAt s 0 0
    ∧ ∀ x y, ∀ k < 64,
        (laneAt t x y).getLsbD ((k + RHO[laneIndex x y].val) % 64) = (laneAt s x y).getLsbD k

/-- PI (R94): the lane at `(x, y)` moves to `(y, (2x + 3y) mod 5)`; the map of positions is a bijection (so this says
every lane of the result) whose one fixed point is `(0, 0)` (R102(c)); nothing but the lanes changes. -/
def Obligations.PiRelocatesEachLane : Prop :=
  (∀ (rnd : Fin 24) (s : State), ∃ t, exec (.pi rnd) s = .next t ∧ OnlyLanesChange s t
    ∧ ∀ x y, laneAt t y (2 * x + 3 * y) = laneAt s x y)
  ∧ Function.Bijective (fun p : Fin 5 × Fin 5 => (p.2, 2 * p.1 + 3 * p.2))
  ∧ ∀ x y : Fin 5, (y, 2 * x + 3 * y) = (x, y) ↔ x = 0 ∧ y = 0

/-- CHI (R95), bit by bit of the input row: lane `x` becomes `A[x] ^ (~A[x+1] & A[x+2])`, indices modulo 5, all read
from the input; nothing but the lanes changes. -/
def Obligations.ChiMixesEachRow : Prop :=
  ∀ (rnd : Fin 24) (s : State), ∃ t, exec (.chi rnd) s = .next t ∧ OnlyLanesChange s t
    ∧ ∀ x y, ∀ k < 64, (laneAt t x y).getLsbD k =
        ((laneAt s x y).getLsbD k ^^ (!(laneAt s (x + 1) y).getLsbD k && (laneAt s (x + 2) y).getLsbD k))

/-- IOTA (R96): the ROM word `RC[rnd]` into lane `(0, 0)`, every byte outside that lane as it was, nothing else
changed, and IOTA with the same round index again gives the lanes back. -/
def Obligations.IotaXorsTheRoundConstant : Prop :=
  ∀ (rnd : Fin 24) (s : State), ∃ t, exec (.iota rnd) s = .next t ∧ OnlyLanesChange s t
    ∧ laneAt t 0 0 = laneAt s 0 0 ^^^ RC[rnd]
    ∧ SameBytesOutside (· < 8) s t
    ∧ ∃ u, exec (.iota rnd) t = .next u ∧ SameBytesOutside (fun _ => False) s u

/-- A micro-operation is a pure function of the lanes: on two States with the same 200 bytes it leaves the same State,
whatever the cursor, the flag and the rest hold (R90). -/
def Obligations.MicroOperationReadsOnlyTheLanes : Prop :=
  ∀ (i : Instr) (s s' t t' : State), i.isCommand = false →
    (∀ a < 200, Memory.read s.mem a = Memory.read s'.mem a) →
    exec i s = .next t → exec i s' = .next t' → t.mem = t'.mem

/-- THETA, RHO and PI are linear over exclusive or, and all but IOTA map the zero array to itself (R102(a)). -/
def Obligations.ThetaRhoPiAreLinear : Prop :=
  (∀ A B : Lanes, theta (xorLanes A B) = xorLanes (theta A) (theta B)
    ∧ rho (xorLanes A B) = xorLanes (rho A) (rho B)
    ∧ Machine.pi (xorLanes A B) = xorLanes (Machine.pi A) (Machine.pi B))
  ∧ theta zeroLanes = zeroLanes ∧ rho zeroLanes = zeroLanes ∧ Machine.pi zeroLanes = zeroLanes
  ∧ chi zeroLanes = zeroLanes

/-- RHO and PI only move bits: the number of set bits is kept (R102(b)). -/
def Obligations.RhoAndPiKeepTheSetBits : Prop :=
  ∀ A : Lanes, setBits (rho A) = setBits A ∧ setBits (Machine.pi A) = setBits A

/-- PERMUTE (R98): of any sequence `A_0, A_1, ..` with `A_{r+1} = ROUND(A_r, r)` for `r = 0 .. 23`, the permutation of
`A_0` is `A_24`. -/
def Obligations.PermuteIsTwentyFourRounds : Prop :=
  ∀ A : Nat → Lanes, (∀ r : Fin 24, A (r.val + 1) = Machine.round (A r.val) r) → permute (A 0) = A 24

/-- The 120 control words the sequencer issues from THETA of round 0 (R72), each a step of the machine, are one
PERMUTE_STATE (R97, R98, R99; the control words are decision D5), after which the sequencer is idle and nothing else
has changed. That a control word is a step of the machine is the model's choice, notes/assumptions/8.md. -/
def Obligations.SequencerProgramIsPermuteState : Prop :=
  ∀ s : State, s.resetIn = false → s.seq = some 0x00#8 →
    Host.Core.run Sys2Proof.core 120 s = .next { s with mem := l2b (permute (b2l s.mem)), seq := none }

/-! ## Bytes and lanes -/

/-- `B2L` and `L2B` are inverse bijections (R45). -/
def Obligations.BytesAndLanesAreInverse : Prop :=
  (∀ A : Lanes, b2l (l2b A) = A) ∧ (∀ m : List Host.Cell, Memory.wf m = true → l2b (b2l m) = m)

/-- `B2L(T)[i]` is the sum of R43, equivalently its byte `j` is `T[8i+j]`, and the byte view of lanes is that of
R44. -/
def Obligations.LanesAreLittleEndian : Prop :=
  (∀ (m : List Host.Cell) (i : Fin 25),
    (b2l m)[i].toNat =
      (Memory.read m (8 * i.val)).toNat + 2 ^ 8 * (Memory.read m (8 * i.val + 1)).toNat
      + 2 ^ 16 * (Memory.read m (8 * i.val + 2)).toNat + 2 ^ 24 * (Memory.read m (8 * i.val + 3)).toNat
      + 2 ^ 32 * (Memory.read m (8 * i.val + 4)).toNat + 2 ^ 40 * (Memory.read m (8 * i.val + 5)).toNat
      + 2 ^ 48 * (Memory.read m (8 * i.val + 6)).toNat + 2 ^ 56 * (Memory.read m (8 * i.val + 7)).toNat)
  ∧ (∀ (m : List Host.Cell) (i : Fin 25), ∀ j < 8,
      (b2l m)[i].extractLsb' (8 * j) 8 = Memory.read m (8 * i.val + j))
  ∧ ∀ (A : Lanes) (i : Fin 25), ∀ j < 8,
      Memory.read (l2b A) (8 * i.val + j) = A[i].extractLsb' (8 * j) 8

/-- A byte XOR into `S[k]` is the XOR of the shifted byte into lane `k div 8`, and no other lane changes (R46). -/
def Obligations.ByteXorIsALaneXor : Prop :=
  ∀ (s : State) (k : Fin 200) (v : Byte) (i : Fin 25), Memory.wf s.mem = true →
    memRead8 i (xorByte k.val v s) =
      if i.val = k.val / 8 then memRead8 i s ^^^ (v.zeroExtend 64 <<< (8 * (k.val % 8))) else memRead8 i s

/-- The memory primitives of R57: what a byte or lane read gives after a byte or lane write, through either view, with
the canonical form kept. A byte write replaces eight bits of the one lane it falls in: the lane read after it has the
byte written in its place and the other seven bytes as before, and every other lane reads as before. -/
def Obligations.MemoryPrimitivesReadBackWhatWasWritten : Prop :=
  ∀ s : State, Memory.wf s.mem = true →
    (∀ (a b : Fin 200) (v : Byte), memRead1 a (memWrite1 b v s) = if a = b then v else memRead1 a s)
    ∧ (∀ (i j : Fin 25) (v : Lane), memRead8 i (memWrite8 j v s) = if i = j then v else memRead8 i s)
    ∧ (∀ (a : Fin 200) (j : Fin 25) (v : Lane), memRead1 a (memWrite8 j v s) =
        if a.val / 8 = j.val then v.extractLsb' (8 * (a.val % 8)) 8 else memRead1 a s)
    ∧ (∀ (i : Fin 25) (b : Fin 200) (v : Byte),
        (i.val = b.val / 8 → ∀ j < 8, (memRead8 i (memWrite1 b v s)).extractLsb' (8 * j) 8 =
          if j = b.val % 8 then v else (memRead8 i s).extractLsb' (8 * j) 8)
        ∧ (i.val ≠ b.val / 8 → memRead8 i (memWrite1 b v s) = memRead8 i s))
    ∧ (∀ (b : Fin 200) (v : Byte), Memory.wf (memWrite1 b v s).mem = true)
    ∧ (∀ (j : Fin 25) (v : Lane), Memory.wf (memWrite8 j v s).mem = true)

/-! ## RESET and hardware reset -/

/-- The values of reset (R38, R160): the State all zero, the cursor 0, not finalized, the engine idle, no response and
no partly received frame. That State.reset has no control word in the sequencer, the reset input not asserted and the
response stream empty is the model's choice, notes/assumptions/10.md. -/
def Obligations.ResetValues : Prop :=
  (∀ a : Nat, Memory.read State.reset.mem a = 0x00#8) ∧ State.reset.ratePos = 0#8 ∧ State.reset.finalized = false
  ∧ Idle State.reset ∧ State.reset.rx = [] ∧ State.reset.respOut = []

/-- RESET (R111), from every state: the State all zero, the cursor 0, the flag 0, the response `OK`, and nothing else
written. The status byte is decision D3. -/
def Obligations.ResetZeroesTheEngine : Prop :=
  ∀ s : State, ∃ t, exec .reset s = .next t
    ∧ (∀ a < 200, Memory.read t.mem a = 0x00#8) ∧ t.ratePos = 0#8 ∧ t.finalized = false
    ∧ t.respOut = s.respOut ++ [0x00#8] ∧ SamePorts s t

/-- Hardware reset, from every state, so also in the middle of a frame, of a command and of a permutation: the reset
state, with no response for what was in progress; only what stands on the two streams outside the engine stays
(R160, R163; decision D11; the streams are the model's, notes/assumptions/7.md). -/
def Obligations.HardwareResetAbandonsEverything : Prop :=
  ∀ s : State, ∃ t, step (hostAssertReset s) = .next t ∧ microStep (hostAssertReset s) = .next t
    ∧ t.mem = [] ∧ t.ratePos = 0#8 ∧ t.finalized = false ∧ t.rx = [] ∧ Idle t
    ∧ t.cmdIn = s.cmdIn ∧ t.respOut = s.respOut

/-- After RESET, whatever came before, every command sequence gives the State, the cursor, the flag and the responses
it gives after hardware reset (R126, R162); RESET's own response comes first, the byte `0x00` of R66 (decision D3,
notes/assumptions/3.md). -/
def Obligations.ResetForgetsThePast : Prop :=
  ∀ (s : State) (cs : List Instr), (∀ i ∈ cs, i.isCommand = true) →
    ∃ t u out, runAll (.reset :: cs) s = .next t ∧ runAll cs State.reset = .next u
      ∧ t.mem = u.mem ∧ t.ratePos = u.ratePos ∧ t.finalized = u.finalized
      ∧ u.respOut = out ∧ t.respOut = s.respOut ++ [0x00#8] ++ out

/-! ## UPDATE -/

/-- ABSORB_BYTE (R112): before the end of the block the byte is XORed in at the cursor and the cursor goes up by one;
the byte that fills the block is XORed in, the whole State is permuted at once, and the cursor is 0. Every other field
is as it was. -/
def Obligations.AbsorbByteStoresThenPermutesOnTheWrap : Prop :=
  ∀ (s : State) (v : Byte), Memory.wf s.mem = true → s.ratePos.toNat ≤ 135 →
    (absorbByte s v).finalized = s.finalized ∧ (absorbByte s v).respOut = s.respOut ∧ SamePorts s (absorbByte s v)
    ∧ (s.ratePos.toNat < 135 →
        XoredFrom s.ratePos.toNat [v] s (absorbByte s v).mem
        ∧ (absorbByte s v).ratePos.toNat = s.ratePos.toNat + 1)
    ∧ (s.ratePos.toNat = 135 →
        (∀ m, Memory.wf m = true → XoredFrom 135 [v] s m → (absorbByte s v).mem = l2b (permute (b2l m)))
        ∧ (absorbByte s v).ratePos = 0#8)

/-- UPDATE in the Absorbing state completes for every payload: the response is `OK`, the cursor becomes
`(rate_pos + n) mod 136`, the memory is that of the fold of ABSORB_BYTE, and nothing else is written (R113). The status
byte is decision D3. -/
def Obligations.UpdateAbsorbsItsPayload : Prop :=
  ∀ (s : State) (data : List Byte), s.finalized = false → s.ratePos.toNat ≤ 135 →
    ∃ t, exec (.update data) s = .next t
      ∧ t.mem = (data.foldl absorbByte s).mem
      ∧ t.ratePos.toNat = (s.ratePos.toNat + data.length) % 136
      ∧ t.finalized = false ∧ t.respOut = s.respOut ++ [0x00#8] ∧ SamePorts s t

/-- An UPDATE that does not fill the block stores its bytes at the cursor and changes no other byte of the State, so
none of the capacity region (R112, R113, R127). -/
def Obligations.UpdateWithinABlockStoresAtTheCursor : Prop :=
  ∀ (s t : State) (data : List Byte), Memory.wf s.mem = true → s.finalized = false →
    s.ratePos.toNat + data.length < 136 → exec (.update data) s = .next t →
    XoredFrom s.ratePos.toNat data s t.mem
    ∧ SameBytesOutside (fun a => s.ratePos.toNat ≤ a ∧ a < s.ratePos.toNat + data.length) s t

/-- An UPDATE that fills the block is the same as storing the bytes that fit, permuting the whole State, and going on
with the rest of the payload from cursor 0 (R112, R113). -/
def Obligations.UpdateThatFillsTheBlockPermutes : Prop :=
  ∀ (s : State) (data : List Byte) (m : List Host.Cell), Memory.wf s.mem = true → s.finalized = false →
    s.ratePos.toNat ≤ 135 → 136 ≤ s.ratePos.toNat + data.length →
    Memory.wf m = true → XoredFrom s.ratePos.toNat (data.take (136 - s.ratePos.toNat)) s m →
    exec (.update data) s =
      exec (.update (data.drop (136 - s.ratePos.toNat))) { s with mem := l2b (permute (b2l m)), ratePos := 0#8 }

/-- A zero-length UPDATE in the Absorbing state changes nothing and responds `OK` (R114). -/
def Obligations.ZeroLengthUpdateIsANoOperation : Prop :=
  ∀ s : State, s.finalized = false → exec (.update []) s = .next (respond (.status .ok) s)

/-- An UPDATE in the Finalized state, of every length, takes the one exception: no write to the State, the cursor or the
flag, the payload discarded, the response `INVALID_STATE`, and the machine goes on (R115, R140 to R144). That nothing is
written is decision D6, that a zero-length UPDATE is rejected too is decision D7, the status byte is decision D3. -/
def Obligations.UpdateAfterFinalizeIsRejected : Prop :=
  ∀ (s : State) (data : List Byte), s.finalized = true →
    exec (.update data) s = .next { s with respOut := s.respOut ++ [0x01#8] }

/-- Streaming invariance (R116): however a byte string is cut into chunks, empty ones too, one UPDATE after the other
leaves the State, the cursor and the flag of a single UPDATE. -/
def Obligations.StreamingInvariance : Prop :=
  ∀ (s : State) (chunks : List (List Byte)), s.finalized = false → s.ratePos.toNat ≤ 135 →
    ∃ t u, runAll (chunks.map .update) s = .next t ∧ exec (.update chunks.flatten) s = .next u
      ∧ t.mem = u.mem ∧ t.ratePos = u.ratePos ∧ t.finalized = u.finalized

/-! ## FINALIZE -/

/-- PAD (R117): `0x06` into the byte at the cursor and `0x80` into byte 135, both also when they are the same byte, in
either order, and no other byte and no register is written. -/
def Obligations.PadXorsTheTwoPaddingBytes : Prop :=
  ∀ s : State, Memory.wf s.mem = true → s.ratePos.toNat ≤ 135 →
    Padded s (pad s).mem ∧ Memory.wf (pad s).mem = true
    ∧ pad s = xorByte s.ratePos.toNat 0x06#8 (xorByte 135 0x80#8 s)
    ∧ (pad s).ratePos = s.ratePos ∧ (pad s).finalized = s.finalized ∧ (pad s).respOut = s.respOut
    ∧ SamePorts s (pad s)

/-- PAD with the cursor at 135 (R118): "The net effect is `S[135] <- S[135] ^ 0x86`"; and the cursor is 135 when the
number of bytes absorbed since the last reset is congruent to 135 modulo 136. -/
def Obligations.PadAtTheLastByteXorsBoth : Prop :=
  (∀ s : State, Memory.wf s.mem = true → s.ratePos.toNat = 135 →
    Memory.read (pad s).mem 135 = Memory.read s.mem 135 ^^^ 0x86#8 ∧ SameBytesOutside (· = 135) s (pad s))
  ∧ ∀ m : List Byte, (absorbedFromReset m).ratePos.toNat = 135 ↔ m.length % 136 = 135

/-- FINALIZE in the Absorbing state (R119): the padded State is permuted once, the flag is set, the response is `OK` and
the first 32 bytes of the permuted State; the cursor is not written (R122, decision D8) and nothing else is. The frame of
the response is decision D3. -/
def Obligations.FinalizePadsPermutesAndResponds : Prop :=
  ∀ s : State, Memory.wf s.mem = true → s.finalized = false → s.ratePos.toNat ≤ 135 →
    ∃ t, exec .finalize s = .next t
      ∧ (∀ m, Memory.wf m = true → Padded s m → t.mem = l2b (permute (b2l m)))
      ∧ t.finalized = true ∧ t.ratePos = s.ratePos
      ∧ t.respOut = s.respOut ++ 0x00#8 :: (List.range 32).map (Memory.read t.mem)
      ∧ SamePorts s t

/-- FINALIZE in the Finalized state (R120): no write to any state, and the response is `OK` with the first 32 bytes of
the State as they stand. The frame of the response is decision D3. -/
def Obligations.FinalizeAgainReturnsTheDigest : Prop :=
  ∀ s : State, s.finalized = true →
    exec .finalize s = .next { s with respOut := s.respOut ++ 0x00#8 :: (List.range 32).map (Memory.read s.mem) }

/-- DIGEST (R121): 32 bytes, byte `j` is `S[j]`, which is byte `k` of lane `i` for `j = 8i + k`; the other 168 bytes of
the State have no part in it, and reading it writes nothing. -/
def Obligations.DigestIsTheFirstThirtyTwoBytes : Prop :=
  ∀ s : State,
    (digest s).length = 32
    ∧ (∀ j < 32, (digest s)[j]? = some (Memory.read s.mem j))
    ∧ (∀ i : Fin 4, ∀ k < 8,
        (digest s)[8 * i.val + k]? = some ((memRead8 ⟨i.val, by omega⟩ s).extractLsb' (8 * k) 8))
    ∧ ∀ s' : State, (∀ j < 32, Memory.read s'.mem j = Memory.read s.mem j) → digest s' = digest s

/-- Post-finalize immutability (R125): from a Finalized state any number of UPDATE and FINALIZE commands, in any order,
leaves the State, the cursor and the flag, each UPDATE is answered `INVALID_STATE` (decisions D6, D7, D3) and each
FINALIZE the same digest. -/
def Obligations.FinalizedStateIsConstant : Prop :=
  ∀ (s : State) (cs : List Instr), s.finalized = true → (∀ i ∈ cs, i.isCommand = true ∧ i ≠ .reset) →
    runAll cs s = .next { s with respOut := s.respOut ++
      (cs.flatMap fun i => if i = .finalize then 0x00#8 :: (List.range 32).map (Memory.read s.mem) else [0x01#8]) }

/-! ## The whole machine -/

/-- The transition table of R110, all six rows: the phase after each command in each phase, and its response. The row of
UPDATE in the Finalized state is stated for every payload; that an empty one is rejected too is decision D7
(notes/assumptions/12.md). The frames of the responses are decision D3 (notes/assumptions/3.md). -/
def Obligations.SpongeTransitionTable : Prop :=
  ∀ s t : State,
    (exec .reset s = .next t → phase t = .absorbing ∧ t.respOut = s.respOut ++ (Response.status .ok).frame)
    ∧ (∀ data, exec (.update data) s = .next t → phase t = phase s
        ∧ t.respOut = s.respOut ++
            (Response.status (if phase s = .absorbing then .ok else .invalidState)).frame)
    ∧ (exec .finalize s = .next t → phase t = .finalized
        ∧ t.respOut = s.respOut ++ (Response.digest (digest t)).frame
        ∧ (phase s = .finalized → digest t = digest s))

/-- Who writes the flag (R26): FINALIZE sets it, RESET clears it, and no other instruction changes it. -/
def Obligations.OnlyResetAndFinalizeWriteTheFlag : Prop :=
  ∀ (i : Instr) (s t : State), exec i s = .next t →
    t.finalized = if i = .finalize then true else if i = .reset then false else s.finalized

/-- Who writes the cursor (R25): an instruction that changes it is RESET, or an UPDATE with a payload in the Absorbing
state. That a rejected UPDATE and FINALIZE leave it are decisions D6 and D8 (notes/assumptions/12.md). -/
def Obligations.OnlyResetAndUpdateWriteTheCursor : Prop :=
  ∀ (i : Instr) (s t : State), exec i s = .next t → t.ratePos ≠ s.ratePos →
    i = .reset ∨ (s.finalized = false ∧ ∃ data, data ≠ [] ∧ i = .update data)

/-- "`InvalidStateError` is raised by the UPDATE command, and only by it, if and only if `finalized = 1` when the command
is executed" (R141): no other instruction, and no other state, gives the response `INVALID_STATE`. That it is given for
an empty payload too is decision D7 (notes/assumptions/12.md); the status byte is decision D3. -/
def Obligations.InvalidStateIffUpdateWhenFinalized : Prop :=
  ∀ (i : Instr) (s t : State), exec i s = .next t →
    (t.respOut = s.respOut ++ (Response.status .invalidState).frame ↔
      s.finalized = true ∧ ∃ data, i = .update data)

/-- Nothing else can fail (R143): in every state of the invariant every instruction has a next state. -/
def Obligations.EveryInstructionCompletes : Prop :=
  ∀ (i : Instr) (s : State), StateInv s → ∃ t, exec i s = .next t

/-- A cursor outside `0 .. 135`, which no run from reset has (R37(a), R164), stops UPDATE with a payload and FINALIZE in
the Absorbing state; the fault is the model's, notes/assumptions/5.md. -/
def Obligations.CursorOutOfRangeStops : Prop :=
  ∀ (s : State) (v : Byte) (data : List Byte), s.finalized = false → 136 ≤ s.ratePos.toNat →
    exec (.update (v :: data)) s = .fault .cursorOutOfRange ∧ exec .finalize s = .fault .cursorOutOfRange

/-- The reset state meets the invariant, and agrees with the session that hardware reset starts (R37(c), R38). -/
def Obligations.ResetMeetsTheInvariant : Prop := StateInv State.reset ∧ Session.start.Agrees State.reset

/-- Every step keeps the invariant: the State byte space in canonical form, the cursor in `0 .. 135` (R25, R37(a)), a
partly received frame partial (R69; decision D2), the sequencer on control words it generates (R72; decision D5), a
command in progress only in the Absorbing state (R110). The control word and the command in progress between two steps
are the model's, notes/assumptions/8.md. -/
def Obligations.StepKeepsTheInvariant : Prop :=
  ∀ s t : State, StateInv s → step s = .next t → StateInv t

/-- Every micro-step keeps the invariant. R37 speaks of the points between two commands; the micro-steps and the states
between them are the model's, notes/assumptions/8.md. -/
def Obligations.MicroStepKeepsTheInvariant : Prop :=
  ∀ s t : State, StateInv s → microStep s = .next t → StateInv t

/-- From a state of the invariant a step has a next state unless the engine is idle, at the start of a frame, and the
byte in the `OPC` position is reserved; then it is refused under that byte (R68, R143; decision D4). That an engine with
no byte, or with a partial frame, has a next state is the model's choice: 93 I17 has it stuck, and the model makes the
wait a step, notes/assumptions/6.md. -/
def Obligations.OnlyAReservedOpcodeStopsAStep : Prop :=
  ∀ s : State, StateInv s →
    (∃ t, step s = .next t)
    ∨ ∃ (opc : Byte) (rest : List Byte), Idle s ∧ s.rx = [] ∧ s.cmdIn = opc :: rest ∧ 3 ≤ opc.toNat
        ∧ step s = .refused (.reservedOpcode opc)

/-- The micro-step machine and the atomic command agree: an idle engine with a whole frame waiting comes, in the number
of micro-steps that R72 and the loops of R175 give, to the state one `step` gives (R19, R49, R101, R112, R119). The
micro-steps are the model's, notes/assumptions/8.md. -/
def Obligations.MicroStepsComeToTheAtomicCommand : Prop :=
  ∀ (s : State) (i : Instr) (rest : List Byte), StateInv s → Idle s → i.isCommand = true → i.wellFormed = true →
    s.rx ++ s.cmdIn = encode i ++ rest →
    microRun (microSteps i s) s = step s

/-! ## The function computed -/

/-- The message-level function (R124): from every state, RESET, the message in any chunks, and FINALIZE give, after one
`OK` for each of the first commands, `OK` and the digest of the message. The frames of the responses are decision D3. -/
def Obligations.DigestOfAMessage : Prop :=
  ∀ (s : State) (chunks : List (List Byte)),
    ∃ t, runAll (.reset :: chunks.map .update ++ [.finalize]) s = .next t
      ∧ t.respOut = s.respOut ++ List.replicate (chunks.length + 1) 0x00#8
          ++ 0x00#8 :: messageDigest chunks.flatten

/-- The history invariant (R37(b), (c), (d)): after every command sequence from reset the flag says whether FINALIZE
closed the session; the cursor is the number of payload bytes accepted since the last reset, modulo 136, in an open
session and in a closed one (FINALIZE does not write it: R122, decision D8; a rejected UPDATE writes nothing, of any
length: decisions D6 and D7; notes/assumptions/12.md); while the session
is open the State is that of absorbing exactly those payloads; once it is closed the State is the one FINALIZE made of
them, and its first 32 bytes are the digest of their concatenation. -/
def Obligations.SessionDeterminesTheState : Prop :=
  ∀ cs : List Instr, (∀ i ∈ cs, i.isCommand = true) →
    ∃ t, runAll cs State.reset = .next t
      ∧ t.finalized = (Session.afterAll cs .start).closed
      ∧ t.ratePos.toNat = (Session.afterAll cs .start).message.length % 136
      ∧ (t.finalized = false → t.mem = (absorbedFromReset (Session.afterAll cs .start).message).mem)
      ∧ (t.finalized = true →
          t.mem = (finalizedFromReset (Session.afterAll cs .start).message).mem
          ∧ digest t = messageDigest (Session.afterAll cs .start).message)

/-- The response stream of every command sequence from reset: one frame for each command, in their order, `OK`,
`INVALID_STATE`, or `OK` with the digest of the message absorbed since the last reset (R70, R110, R124; the frames are
decision D3, the rejection of every later UPDATE decisions D6 and D7). -/
def Obligations.ResponseStreamOfEverySession : Prop :=
  ∀ cs : List Instr, (∀ i ∈ cs, i.isCommand = true) →
    ∃ t, runAll cs State.reset = .next t ∧ t.respOut = Session.responses cs .start

/-- The two ROMs hold what the generating algorithms of R31 and R32 give (G1, G2: from general knowledge, decision
D15). -/
def Obligations.RomsMatchTheirGenerators : Prop :=
  RC.toList = rcTable 24 1
  ∧ RHO[(0 : Fin 25)] = 0
  ∧ (rhoWalk 24 0 1 0).length = 24
  ∧ ∀ i : Fin 25, i ≠ 0 → (i.val, RHO[i].val) ∈ rhoWalk 24 0 1 0

/-- Every command keeps the history invariant, and owes the session its response: from any state that agrees with a
session, whatever run led there, a command has a next state, which agrees with the session after the command, and
appends to the response stream the one frame the session owes it (R37, R70, R110, R124, R125). The frames are decision
D3, the rejection of every UPDATE of a closed session and the cursor that FINALIZE leaves are decisions D6, D7 and D8
(notes/assumptions/3.md, notes/assumptions/12.md). -/
def Obligations.EveryCommandKeepsTheSession : Prop :=
  ∀ (h : Session) (s : State) (i : Instr), h.Agrees s → i.isCommand = true →
    (∃ t, exec i s = .next t)
    ∧ ∀ t, exec i s = .next t →
        (h.after i).Agrees t ∧ t.respOut = s.respOut ++ ((h.response i).map Response.frame).getD []
end

