-- ==== Sys2Proof/Laws/Decode.lean ====
section
/-! SUPPORT. The small facts of the decoder and the encoder: the length field, and the fields of a control word
(spec/30_encoding.md R65, R72). -/

namespace Sys2Proof

/-- The length field reads back as the length (R65). -/
theorem lenOfBytes_ofNat {n : Nat} (h : n < 2 ^ 32) :
    lenOfBytes (BitVec.ofNat 8 n) (BitVec.ofNat 8 (n / 2 ^ 8)) (BitVec.ofNat 8 (n / 2 ^ 16))
      (BitVec.ofNat 8 (n / 2 ^ 24)) = n := by
  simp only [lenOfBytes, BitVec.toNat_ofNat]
  omega

theorem lenOfBytes_lt (b1 b2 b3 b4 : Byte) : lenOfBytes b1 b2 b3 b4 < 2 ^ 32 := by
  have h1 := b1.isLt
  have h2 := b2.isLt
  have h3 := b3.isLt
  have h4 := b4.isLt
  simp only [lenOfBytes]
  omega

/-- Four length bytes are the bytes of the length they make (R65). -/
theorem bytesOfLen_lenOfBytes (b1 b2 b3 b4 : Byte) :
    bytesOfLen (lenOfBytes b1 b2 b3 b4) = [b1, b2, b3, b4] := by
  have h1 := b1.isLt
  have h2 := b2.isLt
  have h3 := b3.isLt
  have h4 := b4.isLt
  simp only [bytesOfLen, lenOfBytes, List.cons.injEq, and_true]
  refine ⟨?_, ?_, ?_, ?_⟩ <;> apply BitVec.eq_of_toNat_eq <;> simp only [BitVec.toNat_ofNat] <;> omega

theorem seqStep_seqWord {step : Nat} (rnd : Nat) (hs : step < 8) : seqStep (seqWord step rnd) = step := by
  simp only [seqStep, seqWord, BitVec.toNat_ofNat]
  omega

theorem seqRnd_seqWord {step rnd : Nat} (hs : step < 8) (hr : rnd < 32) : seqRnd (seqWord step rnd) = rnd := by
  simp only [seqRnd, seqWord, BitVec.toNat_ofNat]
  omega

/-- A control word is made of its two fields (R72). -/
theorem seqWord_fields (w : Byte) : seqWord (seqStep w) (seqRnd w) = w := by
  have h := w.isLt
  apply BitVec.eq_of_toNat_eq
  simp only [seqStep, seqRnd, seqWord, BitVec.toNat_ofNat]
  omega

/-- What `decodeFrame` can answer, and for which bytes: one case per answer. -/
theorem decodeFrame_cases (bs : List Byte) :
    (bs = [] ∧ decodeFrame bs = .incomplete)
    ∨ (∃ tl, bs = 0x00#8 :: tl ∧ decodeFrame bs = .complete .reset tl)
    ∨ (∃ tl, bs = 0x02#8 :: tl ∧ decodeFrame bs = .complete .finalize tl)
    ∨ (∃ tl, bs = 0x01#8 :: tl ∧ tl.length < 4 ∧ decodeFrame bs = .incomplete)
    ∨ (∃ b1 b2 b3 b4 tl, bs = 0x01#8 :: b1 :: b2 :: b3 :: b4 :: tl ∧ tl.length < lenOfBytes b1 b2 b3 b4
        ∧ decodeFrame bs = .incomplete)
    ∨ (∃ b1 b2 b3 b4 data tl, bs = 0x01#8 :: b1 :: b2 :: b3 :: b4 :: (data ++ tl)
        ∧ data.length = lenOfBytes b1 b2 b3 b4 ∧ decodeFrame bs = .complete (.update data) tl)
    ∨ (∃ opc tl, bs = opc :: tl ∧ 3 ≤ opc.toNat ∧ decodeFrame bs = .reserved opc) := by
  cases bs with
  | nil => exact .inl ⟨rfl, rfl⟩
  | cons opc tl =>
    by_cases h0 : opc = 0x00#8
    · subst h0; exact .inr (.inl ⟨tl, rfl, rfl⟩)
    by_cases h2 : opc = 0x02#8
    · subst h2; exact .inr (.inr (.inl ⟨tl, rfl, rfl⟩))
    by_cases h1 : opc = 0x01#8
    · subst h1
      match tl with
      | [] => exact .inr (.inr (.inr (.inl ⟨_, rfl, by simp, rfl⟩)))
      | [_] => exact .inr (.inr (.inr (.inl ⟨_, rfl, by simp, rfl⟩)))
      | [_, _] => exact .inr (.inr (.inr (.inl ⟨_, rfl, by simp, rfl⟩)))
      | [_, _, _] => exact .inr (.inr (.inr (.inl ⟨_, rfl, by simp, rfl⟩)))
      | b1 :: b2 :: b3 :: b4 :: tl =>
        by_cases hl : tl.length < lenOfBytes b1 b2 b3 b4
        · exact .inr (.inr (.inr (.inr (.inl ⟨b1, b2, b3, b4, tl, rfl, hl, by simp [decodeFrame, decodeUpdate, hl]⟩))))
        · refine .inr (.inr (.inr (.inr (.inr (.inl ⟨b1, b2, b3, b4, tl.take (lenOfBytes b1 b2 b3 b4),
            tl.drop (lenOfBytes b1 b2 b3 b4), ?_, ?_, by simp [decodeFrame, decodeUpdate, hl]⟩)))))
          · simp
          · simp only [List.length_take]; omega
    · refine .inr (.inr (.inr (.inr (.inr (.inr ⟨opc, tl, rfl, ?_, by simp [decodeFrame, h0, h1, h2]⟩)))))
      have e0 : opc.toNat ≠ 0 := fun h => h0 (BitVec.eq_of_toNat_eq (by simpa using h))
      have e1 : opc.toNat ≠ 1 := fun h => h1 (BitVec.eq_of_toNat_eq (by simpa using h))
      have e2 : opc.toNat ≠ 2 := fun h => h2 (BitVec.eq_of_toNat_eq (by simpa using h))
      omega

/-- What `decodeSeq` can answer: a micro-operation when `RND` is 0 to 23 and `STEP` 0 to 4, with those fields. -/
theorem decodeSeq_cases (w : Byte) :
    (∃ rnd : Fin 24, rnd.val = seqRnd w ∧
      ((seqStep w = 0 ∧ decodeSeq w = .microOp (.theta rnd)) ∨ (seqStep w = 1 ∧ decodeSeq w = .microOp (.rho rnd))
        ∨ (seqStep w = 2 ∧ decodeSeq w = .microOp (.pi rnd)) ∨ (seqStep w = 3 ∧ decodeSeq w = .microOp (.chi rnd))
        ∨ (seqStep w = 4 ∧ decodeSeq w = .microOp (.iota rnd))))
    ∨ ((24 ≤ seqRnd w ∨ 5 ≤ seqStep w) ∧ decodeSeq w = .neverGenerated w) := by
  by_cases h : seqRnd w < 24
  · by_cases h5 : 5 ≤ seqStep w
    · refine .inr ⟨.inr h5, ?_⟩
      have hs : seqStep w < 8 := Nat.mod_lt _ (by omega)
      have : seqStep w = 5 ∨ seqStep w = 6 ∨ seqStep w = 7 := by omega
      rcases this with e | e | e <;> simp [decodeSeq, h, e]
    · refine .inl ⟨⟨seqRnd w, h⟩, rfl, ?_⟩
      have : seqStep w = 0 ∨ seqStep w = 1 ∨ seqStep w = 2 ∨ seqStep w = 3 ∨ seqStep w = 4 := by omega
      rcases this with e | e | e | e | e <;> simp [decodeSeq, h, e]
  · exact .inr ⟨.inl (by omega), by simp [decodeSeq, h]⟩

end Sys2Proof
end

