-- ==== Sys2Proof/Laws/State.lean ====
section
/-! SUPPORT. What each state update does to each field: one lemma per field per update, true by rfl, so that no later
proof unfolds a record update. -/

namespace Sys2Proof.Machine

variable (s : State)

/-! `xorByte` -/

@[simp] theorem xorByte_mem (k : Nat) (v : Byte) : (xorByte k v s).mem = Memory.write s.mem k (Memory.read s.mem k ^^^ v) := rfl
@[simp] theorem xorByte_ratePos (k : Nat) (v : Byte) : (xorByte k v s).ratePos = s.ratePos := rfl
@[simp] theorem xorByte_finalized (k : Nat) (v : Byte) : (xorByte k v s).finalized = s.finalized := rfl
@[simp] theorem xorByte_cmdIn (k : Nat) (v : Byte) : (xorByte k v s).cmdIn = s.cmdIn := rfl
@[simp] theorem xorByte_rx (k : Nat) (v : Byte) : (xorByte k v s).rx = s.rx := rfl
@[simp] theorem xorByte_respOut (k : Nat) (v : Byte) : (xorByte k v s).respOut = s.respOut := rfl
@[simp] theorem xorByte_seq (k : Nat) (v : Byte) : (xorByte k v s).seq = s.seq := rfl
@[simp] theorem xorByte_running (k : Nat) (v : Byte) : (xorByte k v s).running = s.running := rfl
@[simp] theorem xorByte_resetIn (k : Nat) (v : Byte) : (xorByte k v s).resetIn = s.resetIn := rfl

/-! `memWrite1` -/

@[simp] theorem memWrite1_mem (k : Fin 200) (v : Byte) : (memWrite1 k v s).mem = Memory.write s.mem k.val v := rfl
@[simp] theorem memWrite1_ratePos (k : Fin 200) (v : Byte) : (memWrite1 k v s).ratePos = s.ratePos := rfl
@[simp] theorem memWrite1_finalized (k : Fin 200) (v : Byte) : (memWrite1 k v s).finalized = s.finalized := rfl
@[simp] theorem memWrite1_cmdIn (k : Fin 200) (v : Byte) : (memWrite1 k v s).cmdIn = s.cmdIn := rfl
@[simp] theorem memWrite1_rx (k : Fin 200) (v : Byte) : (memWrite1 k v s).rx = s.rx := rfl
@[simp] theorem memWrite1_respOut (k : Fin 200) (v : Byte) : (memWrite1 k v s).respOut = s.respOut := rfl
@[simp] theorem memWrite1_seq (k : Fin 200) (v : Byte) : (memWrite1 k v s).seq = s.seq := rfl
@[simp] theorem memWrite1_running (k : Fin 200) (v : Byte) : (memWrite1 k v s).running = s.running := rfl
@[simp] theorem memWrite1_resetIn (k : Fin 200) (v : Byte) : (memWrite1 k v s).resetIn = s.resetIn := rfl

/-! `memWrite8` -/

@[simp] theorem memWrite8_mem (i : Fin 25) (v : Lane) : (memWrite8 i v s).mem = (List.range 8).foldl (fun m j => Memory.write m (8 * i.val + j) (v.extractLsb' (8 * j) 8)) s.mem := rfl
@[simp] theorem memWrite8_ratePos (i : Fin 25) (v : Lane) : (memWrite8 i v s).ratePos = s.ratePos := rfl
@[simp] theorem memWrite8_finalized (i : Fin 25) (v : Lane) : (memWrite8 i v s).finalized = s.finalized := rfl
@[simp] theorem memWrite8_cmdIn (i : Fin 25) (v : Lane) : (memWrite8 i v s).cmdIn = s.cmdIn := rfl
@[simp] theorem memWrite8_rx (i : Fin 25) (v : Lane) : (memWrite8 i v s).rx = s.rx := rfl
@[simp] theorem memWrite8_respOut (i : Fin 25) (v : Lane) : (memWrite8 i v s).respOut = s.respOut := rfl
@[simp] theorem memWrite8_seq (i : Fin 25) (v : Lane) : (memWrite8 i v s).seq = s.seq := rfl
@[simp] theorem memWrite8_running (i : Fin 25) (v : Lane) : (memWrite8 i v s).running = s.running := rfl
@[simp] theorem memWrite8_resetIn (i : Fin 25) (v : Lane) : (memWrite8 i v s).resetIn = s.resetIn := rfl

/-! `mapLanes` -/

@[simp] theorem mapLanes_mem (f : Lanes → Lanes) : (mapLanes f s).mem = l2b (f (b2l s.mem)) := rfl
@[simp] theorem mapLanes_ratePos (f : Lanes → Lanes) : (mapLanes f s).ratePos = s.ratePos := rfl
@[simp] theorem mapLanes_finalized (f : Lanes → Lanes) : (mapLanes f s).finalized = s.finalized := rfl
@[simp] theorem mapLanes_cmdIn (f : Lanes → Lanes) : (mapLanes f s).cmdIn = s.cmdIn := rfl
@[simp] theorem mapLanes_rx (f : Lanes → Lanes) : (mapLanes f s).rx = s.rx := rfl
@[simp] theorem mapLanes_respOut (f : Lanes → Lanes) : (mapLanes f s).respOut = s.respOut := rfl
@[simp] theorem mapLanes_seq (f : Lanes → Lanes) : (mapLanes f s).seq = s.seq := rfl
@[simp] theorem mapLanes_running (f : Lanes → Lanes) : (mapLanes f s).running = s.running := rfl
@[simp] theorem mapLanes_resetIn (f : Lanes → Lanes) : (mapLanes f s).resetIn = s.resetIn := rfl

/-! `permuteState` -/

@[simp] theorem permuteState_mem : (permuteState s).mem = l2b (permute (b2l s.mem)) := rfl
@[simp] theorem permuteState_ratePos : (permuteState s).ratePos = s.ratePos := rfl
@[simp] theorem permuteState_finalized : (permuteState s).finalized = s.finalized := rfl
@[simp] theorem permuteState_cmdIn : (permuteState s).cmdIn = s.cmdIn := rfl
@[simp] theorem permuteState_rx : (permuteState s).rx = s.rx := rfl
@[simp] theorem permuteState_respOut : (permuteState s).respOut = s.respOut := rfl
@[simp] theorem permuteState_seq : (permuteState s).seq = s.seq := rfl
@[simp] theorem permuteState_running : (permuteState s).running = s.running := rfl
@[simp] theorem permuteState_resetIn : (permuteState s).resetIn = s.resetIn := rfl

/-! `respond` -/

@[simp] theorem respond_mem (r : Response) : (respond r s).mem = s.mem := rfl
@[simp] theorem respond_ratePos (r : Response) : (respond r s).ratePos = s.ratePos := rfl
@[simp] theorem respond_finalized (r : Response) : (respond r s).finalized = s.finalized := rfl
@[simp] theorem respond_cmdIn (r : Response) : (respond r s).cmdIn = s.cmdIn := rfl
@[simp] theorem respond_rx (r : Response) : (respond r s).rx = s.rx := rfl
@[simp] theorem respond_respOut (r : Response) : (respond r s).respOut = s.respOut ++ r.frame := rfl
@[simp] theorem respond_seq (r : Response) : (respond r s).seq = s.seq := rfl
@[simp] theorem respond_running (r : Response) : (respond r s).running = s.running := rfl
@[simp] theorem respond_resetIn (r : Response) : (respond r s).resetIn = s.resetIn := rfl

/-! `raiseInvalidState` -/

@[simp] theorem raiseInvalidState_mem : (raiseInvalidState s).mem = s.mem := rfl
@[simp] theorem raiseInvalidState_ratePos : (raiseInvalidState s).ratePos = s.ratePos := rfl
@[simp] theorem raiseInvalidState_finalized : (raiseInvalidState s).finalized = s.finalized := rfl
@[simp] theorem raiseInvalidState_cmdIn : (raiseInvalidState s).cmdIn = s.cmdIn := rfl
@[simp] theorem raiseInvalidState_rx : (raiseInvalidState s).rx = s.rx := rfl
@[simp] theorem raiseInvalidState_respOut : (raiseInvalidState s).respOut = s.respOut ++ [0x01#8] := rfl
@[simp] theorem raiseInvalidState_seq : (raiseInvalidState s).seq = s.seq := rfl
@[simp] theorem raiseInvalidState_running : (raiseInvalidState s).running = s.running := rfl
@[simp] theorem raiseInvalidState_resetIn : (raiseInvalidState s).resetIn = s.resetIn := rfl

/-! `clearCursor` -/

@[simp] theorem clearCursor_mem : (clearCursor s).mem = s.mem := rfl
@[simp] theorem clearCursor_ratePos : (clearCursor s).ratePos = 0#8 := rfl
@[simp] theorem clearCursor_finalized : (clearCursor s).finalized = s.finalized := rfl
@[simp] theorem clearCursor_cmdIn : (clearCursor s).cmdIn = s.cmdIn := rfl
@[simp] theorem clearCursor_rx : (clearCursor s).rx = s.rx := rfl
@[simp] theorem clearCursor_respOut : (clearCursor s).respOut = s.respOut := rfl
@[simp] theorem clearCursor_seq : (clearCursor s).seq = s.seq := rfl
@[simp] theorem clearCursor_running : (clearCursor s).running = s.running := rfl
@[simp] theorem clearCursor_resetIn : (clearCursor s).resetIn = s.resetIn := rfl

/-! `setFinalized` -/

@[simp] theorem setFinalized_mem : (setFinalized s).mem = s.mem := rfl
@[simp] theorem setFinalized_ratePos : (setFinalized s).ratePos = s.ratePos := rfl
@[simp] theorem setFinalized_finalized : (setFinalized s).finalized = true := rfl
@[simp] theorem setFinalized_cmdIn : (setFinalized s).cmdIn = s.cmdIn := rfl
@[simp] theorem setFinalized_rx : (setFinalized s).rx = s.rx := rfl
@[simp] theorem setFinalized_respOut : (setFinalized s).respOut = s.respOut := rfl
@[simp] theorem setFinalized_seq : (setFinalized s).seq = s.seq := rfl
@[simp] theorem setFinalized_running : (setFinalized s).running = s.running := rfl
@[simp] theorem setFinalized_resetIn : (setFinalized s).resetIn = s.resetIn := rfl

/-! `clearFinalized` -/

@[simp] theorem clearFinalized_mem : (clearFinalized s).mem = s.mem := rfl
@[simp] theorem clearFinalized_ratePos : (clearFinalized s).ratePos = s.ratePos := rfl
@[simp] theorem clearFinalized_finalized : (clearFinalized s).finalized = false := rfl
@[simp] theorem clearFinalized_cmdIn : (clearFinalized s).cmdIn = s.cmdIn := rfl
@[simp] theorem clearFinalized_rx : (clearFinalized s).rx = s.rx := rfl
@[simp] theorem clearFinalized_respOut : (clearFinalized s).respOut = s.respOut := rfl
@[simp] theorem clearFinalized_seq : (clearFinalized s).seq = s.seq := rfl
@[simp] theorem clearFinalized_running : (clearFinalized s).running = s.running := rfl
@[simp] theorem clearFinalized_resetIn : (clearFinalized s).resetIn = s.resetIn := rfl

/-! `zeroState` -/

@[simp] theorem zeroState_mem : (zeroState s).mem = [] := rfl
@[simp] theorem zeroState_ratePos : (zeroState s).ratePos = 0#8 := rfl
@[simp] theorem zeroState_finalized : (zeroState s).finalized = false := rfl
@[simp] theorem zeroState_cmdIn : (zeroState s).cmdIn = s.cmdIn := rfl
@[simp] theorem zeroState_rx : (zeroState s).rx = s.rx := rfl
@[simp] theorem zeroState_respOut : (zeroState s).respOut = s.respOut := rfl
@[simp] theorem zeroState_seq : (zeroState s).seq = s.seq := rfl
@[simp] theorem zeroState_running : (zeroState s).running = s.running := rfl
@[simp] theorem zeroState_resetIn : (zeroState s).resetIn = s.resetIn := rfl

/-! `startSeq` -/

@[simp] theorem startSeq_mem : (startSeq s).mem = s.mem := rfl
@[simp] theorem startSeq_ratePos : (startSeq s).ratePos = s.ratePos := rfl
@[simp] theorem startSeq_finalized : (startSeq s).finalized = s.finalized := rfl
@[simp] theorem startSeq_cmdIn : (startSeq s).cmdIn = s.cmdIn := rfl
@[simp] theorem startSeq_rx : (startSeq s).rx = s.rx := rfl
@[simp] theorem startSeq_respOut : (startSeq s).respOut = s.respOut := rfl
@[simp] theorem startSeq_seq : (startSeq s).seq = some (seqWord 0 0) := rfl
@[simp] theorem startSeq_running : (startSeq s).running = s.running := rfl
@[simp] theorem startSeq_resetIn : (startSeq s).resetIn = s.resetIn := rfl

/-! `hostSend` -/

@[simp] theorem hostSend_mem (bytes : List Byte) : (hostSend bytes s).mem = s.mem := rfl
@[simp] theorem hostSend_ratePos (bytes : List Byte) : (hostSend bytes s).ratePos = s.ratePos := rfl
@[simp] theorem hostSend_finalized (bytes : List Byte) : (hostSend bytes s).finalized = s.finalized := rfl
@[simp] theorem hostSend_cmdIn (bytes : List Byte) : (hostSend bytes s).cmdIn = s.cmdIn ++ bytes := rfl
@[simp] theorem hostSend_rx (bytes : List Byte) : (hostSend bytes s).rx = s.rx := rfl
@[simp] theorem hostSend_respOut (bytes : List Byte) : (hostSend bytes s).respOut = s.respOut := rfl
@[simp] theorem hostSend_seq (bytes : List Byte) : (hostSend bytes s).seq = s.seq := rfl
@[simp] theorem hostSend_running (bytes : List Byte) : (hostSend bytes s).running = s.running := rfl
@[simp] theorem hostSend_resetIn (bytes : List Byte) : (hostSend bytes s).resetIn = s.resetIn := rfl

/-! `hostAssertReset` -/

@[simp] theorem hostAssertReset_mem : (hostAssertReset s).mem = s.mem := rfl
@[simp] theorem hostAssertReset_ratePos : (hostAssertReset s).ratePos = s.ratePos := rfl
@[simp] theorem hostAssertReset_finalized : (hostAssertReset s).finalized = s.finalized := rfl
@[simp] theorem hostAssertReset_cmdIn : (hostAssertReset s).cmdIn = s.cmdIn := rfl
@[simp] theorem hostAssertReset_rx : (hostAssertReset s).rx = s.rx := rfl
@[simp] theorem hostAssertReset_respOut : (hostAssertReset s).respOut = s.respOut := rfl
@[simp] theorem hostAssertReset_seq : (hostAssertReset s).seq = s.seq := rfl
@[simp] theorem hostAssertReset_running : (hostAssertReset s).running = s.running := rfl
@[simp] theorem hostAssertReset_resetIn : (hostAssertReset s).resetIn = true := rfl

/-! `hardwareReset` -/

@[simp] theorem hardwareReset_mem : (hardwareReset s).mem = [] := rfl
@[simp] theorem hardwareReset_ratePos : (hardwareReset s).ratePos = 0#8 := rfl
@[simp] theorem hardwareReset_finalized : (hardwareReset s).finalized = false := rfl
@[simp] theorem hardwareReset_cmdIn : (hardwareReset s).cmdIn = s.cmdIn := rfl
@[simp] theorem hardwareReset_rx : (hardwareReset s).rx = [] := rfl
@[simp] theorem hardwareReset_respOut : (hardwareReset s).respOut = s.respOut := rfl
@[simp] theorem hardwareReset_seq : (hardwareReset s).seq = none := rfl
@[simp] theorem hardwareReset_running : (hardwareReset s).running = none := rfl
@[simp] theorem hardwareReset_resetIn : (hardwareReset s).resetIn = false := rfl

/-! `storeByte` -/

@[simp] theorem storeByte_mem (v : Byte) : (storeByte s v).mem = Memory.write s.mem s.ratePos.toNat (Memory.read s.mem s.ratePos.toNat ^^^ v) := rfl
@[simp] theorem storeByte_ratePos (v : Byte) : (storeByte s v).ratePos = s.ratePos + 1#8 := rfl
@[simp] theorem storeByte_finalized (v : Byte) : (storeByte s v).finalized = s.finalized := rfl
@[simp] theorem storeByte_cmdIn (v : Byte) : (storeByte s v).cmdIn = s.cmdIn := rfl
@[simp] theorem storeByte_rx (v : Byte) : (storeByte s v).rx = s.rx := rfl
@[simp] theorem storeByte_respOut (v : Byte) : (storeByte s v).respOut = s.respOut := rfl
@[simp] theorem storeByte_seq (v : Byte) : (storeByte s v).seq = s.seq := rfl
@[simp] theorem storeByte_running (v : Byte) : (storeByte s v).running = s.running := rfl
@[simp] theorem storeByte_resetIn (v : Byte) : (storeByte s v).resetIn = s.resetIn := rfl

/-! `pad` -/

@[simp] theorem pad_mem : (pad s).mem = (xorByte 135 0x80#8 (xorByte s.ratePos.toNat 0x06#8 s)).mem := rfl
@[simp] theorem pad_ratePos : (pad s).ratePos = s.ratePos := rfl
@[simp] theorem pad_finalized : (pad s).finalized = s.finalized := rfl
@[simp] theorem pad_cmdIn : (pad s).cmdIn = s.cmdIn := rfl
@[simp] theorem pad_rx : (pad s).rx = s.rx := rfl
@[simp] theorem pad_respOut : (pad s).respOut = s.respOut := rfl
@[simp] theorem pad_seq : (pad s).seq = s.seq := rfl
@[simp] theorem pad_running : (pad s).running = s.running := rfl
@[simp] theorem pad_resetIn : (pad s).resetIn = s.resetIn := rfl

end Sys2Proof.Machine
end

