-- ==== Sys2Proof/Laws/Memory.lean ====
section
/-! SUPPORT. The laws of the State byte space: read after write, the canonical form is kept, equal reads are equal
memories, and the lane view (spec/20_memory.md R43, R44, R57). -/

namespace Sys2Proof.Machine

theorem Memory.wfFrom_cons {lo a : Nat} {v : Byte} {m : List Host.Cell} :
    Memory.wfFrom lo ((a, v) :: m) = true ↔ lo ≤ a ∧ a < 200 ∧ v ≠ 0#8 ∧ Memory.wfFrom (a + 1) m = true := by
  simp only [Memory.wfFrom, Memory.unlisted, Bool.and_eq_true, decide_eq_true_eq, bne_iff_ne, and_assoc]

theorem Memory.wfFrom_mono {lo lo' : Nat} {m : List Host.Cell} (h : Memory.wfFrom lo m = true) (hl : lo' ≤ lo) :
    Memory.wfFrom lo' m = true := by
  cases m with
  | nil => rfl
  | cons c m =>
    obtain ⟨a, v⟩ := c
    rw [Memory.wfFrom_cons] at h ⊢
    exact ⟨hl.trans h.1, h.2⟩

/-- Below the lowest listed address everything reads as the unlisted byte. -/
theorem Memory.read_below {lo k : Nat} {m : List Host.Cell} (h : Memory.wfFrom lo m = true) (hk : k < lo) :
    Memory.read m k = 0#8 := by
  induction m generalizing lo with
  | nil => rfl
  | cons c m ih =>
    obtain ⟨a, v⟩ := c
    rw [Memory.wfFrom_cons] at h
    have hne : a ≠ k := by omega
    simp only [Memory.read, hne, if_false]
    exact ih h.2.2.2 (by omega)

/-- No address at or above 200 is listed. -/
theorem Memory.read_above {lo k : Nat} {m : List Host.Cell} (h : Memory.wfFrom lo m = true) (hk : 200 ≤ k) :
    Memory.read m k = 0#8 := by
  induction m generalizing lo with
  | nil => rfl
  | cons c m ih =>
    obtain ⟨a, v⟩ := c
    rw [Memory.wfFrom_cons] at h
    have hne : a ≠ k := by omega
    simp only [Memory.read, hne, if_false]
    exact ih h.2.2.2

theorem Memory.read_write_same {lo : Nat} {m : List Host.Cell} (h : Memory.wfFrom lo m = true) (k : Nat) (v : Byte) :
    Memory.read (Memory.write m k v) k = v := by
  induction m generalizing lo with
  | nil =>
    by_cases hv : v = 0#8 <;> simp [Memory.write, Memory.read, Memory.unlisted, hv]
  | cons c m ih =>
    obtain ⟨a, x⟩ := c
    have hw := Memory.wfFrom_cons.mp h
    unfold Memory.write
    by_cases h1 : k < a
    · by_cases hv : v = 0#8
      · simp only [h1, if_true, Memory.unlisted, hv]
        exact Memory.read_below (lo := a) (Memory.wfFrom_cons.mpr ⟨le_rfl, hw.2⟩) h1
      · simp [h1, Memory.unlisted, hv, Memory.read]
    · by_cases h2 : a = k
      · subst h2
        by_cases hv : v = 0#8
        · simp only [h1, if_false, if_true, Memory.unlisted, hv]
          exact Memory.read_below hw.2.2.2 (by omega)
        · simp [Memory.unlisted, hv, Memory.read]
      · simp only [h1, h2, if_false, Memory.read]
        exact ih hw.2.2.2

theorem Memory.read_write_other (m : List Host.Cell) {j k : Nat} (v : Byte) (hjk : j ≠ k) :
    Memory.read (Memory.write m k v) j = Memory.read m j := by
  induction m with
  | nil =>
    by_cases hv : v = 0#8 <;> simp [Memory.write, Memory.read, Memory.unlisted, hv, Ne.symm hjk]
  | cons c m ih =>
    obtain ⟨a, x⟩ := c
    unfold Memory.write
    by_cases h1 : k < a
    · by_cases hv : v = 0#8 <;> simp [h1, Memory.unlisted, hv, Memory.read, Ne.symm hjk]
    · by_cases h2 : a = k
      · subst h2
        by_cases hv : v = 0#8 <;> simp [Memory.unlisted, hv, Memory.read, Ne.symm hjk]
      · simp only [h1, h2, if_false, Memory.read, ih]

theorem Memory.wfFrom_write {lo k : Nat} {m : List Host.Cell} {v : Byte} (h : Memory.wfFrom lo m = true)
    (hlo : lo ≤ k) (hk : k < 200) : Memory.wfFrom lo (Memory.write m k v) = true := by
  induction m generalizing lo with
  | nil =>
    by_cases hv : v = 0#8
    · simp [Memory.write, Memory.unlisted, hv, Memory.wfFrom]
    · simp [Memory.write, Memory.unlisted, hv, Memory.wfFrom, hlo, hk]
  | cons c m ih =>
    obtain ⟨a, x⟩ := c
    have hw := Memory.wfFrom_cons.mp h
    unfold Memory.write
    by_cases h1 : k < a
    · by_cases hv : v = 0#8
      · simpa [h1, Memory.unlisted, hv] using h
      · simp only [h1, if_true, Memory.unlisted, hv, if_false]
        exact Memory.wfFrom_cons.mpr ⟨hlo, hk, hv, Memory.wfFrom_cons.mpr ⟨h1, hw.2⟩⟩
    · by_cases h2 : a = k
      · subst h2
        by_cases hv : v = 0#8
        · simp only [h1, if_false, if_true, Memory.unlisted, hv]
          exact Memory.wfFrom_mono hw.2.2.2 (by omega)
        · simp only [h1, if_false, if_true, Memory.unlisted, hv]
          exact Memory.wfFrom_cons.mpr ⟨hlo, hk, hv, hw.2.2.2⟩
      · simp only [h1, h2, if_false]
        exact Memory.wfFrom_cons.mpr ⟨hw.1, hw.2.1, hw.2.2.1, ih hw.2.2.2 (by omega)⟩

/-- A write of one byte keeps the canonical form. -/
theorem Memory.wf_write {k : Nat} {m : List Host.Cell} {v : Byte} (h : Memory.wf m = true) (hk : k < 200) :
    Memory.wf (Memory.write m k v) = true :=
  Memory.wfFrom_write h (Nat.zero_le k) hk

/-- One read for both cases of a write. -/
theorem Memory.read_write {m : List Host.Cell} (h : Memory.wf m = true) (j k : Nat) (v : Byte) :
    Memory.read (Memory.write m k v) j = if j = k then v else Memory.read m j := by
  by_cases hjk : j = k
  · subst hjk
    simp [Memory.read_write_same h]
  · simp [hjk, Memory.read_write_other m v hjk]

theorem Memory.read_tabulate (T : Nat → Byte) (n lo k : Nat) :
    Memory.read (Memory.tabulate T n lo) k = if lo ≤ k ∧ k < lo + n then T k else 0#8 := by
  induction n generalizing lo with
  | zero =>
    have : ¬ (lo ≤ k ∧ k < lo + 0) := by omega
    simp only [Memory.tabulate, Memory.read, Memory.unlisted, this, if_false]
  | succ n ih =>
    by_cases hk : k = lo
    · subst hk
      by_cases hT : T k = 0#8
      · have h0 : ¬ (k + 1 ≤ k ∧ k < k + 1 + n) := by omega
        simp [Memory.tabulate, Memory.unlisted, hT, ih]
      · simp [Memory.tabulate, Memory.unlisted, hT, Memory.read]
    · have hiff : (lo + 1 ≤ k ∧ k < lo + 1 + n) ↔ (lo ≤ k ∧ k < lo + (n + 1)) := by omega
      by_cases hT : T lo = 0#8
      · simp only [Memory.tabulate, Memory.unlisted, hT, if_true, ih, hiff]
      · simp only [Memory.tabulate, Memory.unlisted, hT, if_false, Memory.read, Ne.symm hk, ih, hiff]

theorem Memory.wfFrom_tabulate (T : Nat → Byte) (n lo : Nat) (h : lo + n ≤ 200) :
    Memory.wfFrom lo (Memory.tabulate T n lo) = true := by
  induction n generalizing lo with
  | zero => rfl
  | succ n ih =>
    have ih' := ih (lo + 1) (by omega)
    by_cases hT : T lo = 0#8
    · simp only [Memory.tabulate, Memory.unlisted, hT, if_true]
      exact Memory.wfFrom_mono ih' (by omega)
    · simp only [Memory.tabulate, Memory.unlisted, hT, if_false]
      exact Memory.wfFrom_cons.mpr ⟨le_rfl, by omega, hT, ih'⟩

/-- In canonical form, equal reads are equal lists. -/
theorem Memory.eq_of_read_eq {lo : Nat} {m m' : List Host.Cell} (h : Memory.wfFrom lo m = true)
    (h' : Memory.wfFrom lo m' = true) (hr : ∀ k, Memory.read m k = Memory.read m' k) : m = m' := by
  induction m generalizing lo m' with
  | nil =>
    cases m' with
    | nil => rfl
    | cons c m' =>
      obtain ⟨a, v⟩ := c
      have := hr a
      simp only [Memory.read, if_true, Memory.unlisted] at this
      exact absurd this.symm (Memory.wfFrom_cons.mp h').2.2.1
  | cons c m ih =>
    obtain ⟨a, v⟩ := c
    have hw := Memory.wfFrom_cons.mp h
    cases m' with
    | nil =>
      have := hr a
      simp only [Memory.read, if_true, Memory.unlisted] at this
      exact absurd this hw.2.2.1
    | cons c' m' =>
      obtain ⟨a', v'⟩ := c'
      have hw' := Memory.wfFrom_cons.mp h'
      have haa : a = a' := by
        rcases Nat.lt_trichotomy a a' with hlt | heq | hgt
        · have := hr a
          rw [Memory.read_below (lo := a') (Memory.wfFrom_cons.mpr ⟨le_rfl, hw'.2⟩) hlt] at this
          simp only [Memory.read, if_true] at this
          exact absurd this hw.2.2.1
        · exact heq
        · have := hr a'
          rw [Memory.read_below (lo := a) (Memory.wfFrom_cons.mpr ⟨le_rfl, hw.2⟩) hgt] at this
          simp only [Memory.read, if_true] at this
          exact absurd this.symm hw'.2.2.1
      subst haa
      have hvv : v = v' := by simpa [Memory.read] using hr a
      subst hvv
      have hm : m = m' := by
        refine ih hw.2.2.2 hw'.2.2.2 fun k => ?_
        by_cases hk : a = k
        · rw [Memory.read_below hw.2.2.2 (by omega), Memory.read_below hw'.2.2.2 (by omega)]
        · simpa [Memory.read, hk] using hr k
      rw [hm]

/-! ## The lane view -/

theorem wf_l2b (A : Lanes) : Memory.wf (l2b A) = true := by
  rw [l2b]
  exact Memory.wfFrom_tabulate _ 200 0 (by omega)

/-- Byte `k` of a State that holds the lanes `A` (R44). -/
theorem read_l2b (A : Lanes) (k : Nat) : Memory.read (l2b A) k = if k < 200 then byteOfLanes A k else 0#8 := by
  simp only [l2b, Memory.read_tabulate, Nat.zero_le, true_and, Nat.zero_add]

/-- The lane made of the eight bytes of a lane is that lane (R43, R44). -/
theorem laneOfBytes_byteOfLanes (A : Lanes) (i : Fin 25) : laneOfBytes (byteOfLanes A) i.val = A[i] := by
  have e : ∀ j, j < 8 → byteOfLanes A (8 * i.val + j) = A[i].extractLsb' (8 * j) 8 := by
    intro j hj
    have h1 : (8 * i.val + j) / 8 = i.val := by omega
    have h2 : (8 * i.val + j) % 8 = j := by omega
    simp [byteOfLanes, h1, h2, Vector.getD]
  have e0 := e 0 (by omega)
  simp only [Nat.add_zero] at e0
  simp only [laneOfBytes, e 7 (by omega), e 6 (by omega), e 5 (by omega), e 4 (by omega), e 3 (by omega),
    e 2 (by omega), e 1 (by omega), e0]
  generalize A[i] = v
  ext k hk
  simp only [BitVec.getElem_append, BitVec.getElem_extractLsb']
  repeat' split
  all_goals (simp only [← BitVec.getLsbD_eq_getElem]; congr 1; omega)

/-- The eight bytes of a lane made of eight bytes are those bytes (R43, R44). -/
theorem extractLsb'_laneOfBytes (T : Nat → Byte) (i j : Nat) (hj : j < 8) :
    (laneOfBytes T i).extractLsb' (8 * j) 8 = T (8 * i + j) := by
  ext k hk
  have hj' : j = 0 ∨ j = 1 ∨ j = 2 ∨ j = 3 ∨ j = 4 ∨ j = 5 ∨ j = 6 ∨ j = 7 := by omega
  simp only [laneOfBytes, BitVec.getElem_extractLsb', BitVec.getLsbD_append]
  rcases hj' with rfl | rfl | rfl | rfl | rfl | rfl | rfl | rfl <;>
  · repeat' (split; first | omega | skip)
    all_goals first
      | omega
      | (rw [← BitVec.getLsbD_eq_getElem]; congr 1; omega)

theorem byteOfLanes_b2lOf (T : Nat → Byte) {k : Nat} (hk : k < 200) : byteOfLanes (b2lOf T) k = T k := by
  have h1 : k / 8 < 25 := by omega
  have h2 : 8 * (k / 8) + k % 8 = k := by omega
  have h3 : (b2lOf T).getD (k / 8) 0#64 = laneOfBytes T (k / 8) := by
    simp [b2lOf, Vector.getD, h1]
  rw [byteOfLanes, h3, extractLsb'_laneOfBytes _ _ _ (by omega), h2]

theorem laneOfBytes_congr {T T' : Nat → Byte} {i : Nat} (h : ∀ j < 8, T (8 * i + j) = T' (8 * i + j)) :
    laneOfBytes T i = laneOfBytes T' i := by
  have h0 := h 0 (by omega)
  simp only [Nat.add_zero] at h0
  simp only [laneOfBytes, h 7 (by omega), h 6 (by omega), h 5 (by omega), h 4 (by omega), h 3 (by omega),
    h 2 (by omega), h 1 (by omega), h0]

/-- `B2L` reads the 200 bytes and no other. -/
theorem b2lOf_congr {T T' : Nat → Byte} (h : ∀ k < 200, T k = T' k) : b2lOf T = b2lOf T' := by
  ext i hi
  have : laneOfBytes T i = laneOfBytes T' i := laneOfBytes_congr fun j hj => h (8 * i + j) (by omega)
  simp [b2lOf, this]

/-- Lane `i` of a State that holds the lanes `A`. -/
theorem laneOfBytes_l2b (A : Lanes) (i : Fin 25) : laneOfBytes (Memory.read (l2b A)) i.val = A[i] := by
  rw [← laneOfBytes_byteOfLanes A i]
  refine laneOfBytes_congr fun j hj => ?_
  have : 8 * i.val + j < 200 := by omega
  simp [read_l2b, this]

end Sys2Proof.Machine
end

