-- ==== Sys2Proof/Laws/Keccak.lean ====
section
/-! SUPPORT. One lemma per function of the permutation engine: what each lane of its result is
(spec/40_permutation.md R91 to R98). -/

namespace Sys2Proof.Machine

@[simp] theorem xOf_laneIndex (x y : Fin 5) : xOf (laneIndex x y) = x := by
  ext; simp only [xOf, laneIndex]; omega

@[simp] theorem yOf_laneIndex (x y : Fin 5) : yOf (laneIndex x y) = y := by
  ext; simp only [yOf, laneIndex]; omega

@[simp] theorem laneIndex_xOf_yOf (i : Fin 25) : laneIndex (xOf i) (yOf i) = i := by
  ext; simp only [xOf, yOf, laneIndex]; omega

@[simp] theorem at2_ofCoords (f : Fin 5 → Fin 5 → Lane) (x y : Fin 5) : at2 (ofCoords f) x y = f x y := by
  simp [at2, ofCoords]

/-- Two arrays with the same lane at every coordinate are equal. -/
theorem lanes_ext {A B : Lanes} (h : ∀ x y, at2 A x y = at2 B x y) : A = B := by
  refine Vector.ext fun i hi => ?_
  have := h (xOf ⟨i, hi⟩) (yOf ⟨i, hi⟩)
  simpa [at2] using this

theorem at2_theta (A : Lanes) (x y : Fin 5) :
    at2 (theta A) x y = at2 A x y ^^^ (columnParity A)[x + 4] ^^^ rol64 (columnParity A)[x + 1] 1 := by
  simp [theta, thetaD, BitVec.xor_assoc]

theorem columnParity_getElem (A : Lanes) (x : Fin 5) :
    (columnParity A)[x] = at2 A x 0 ^^^ at2 A x 1 ^^^ at2 A x 2 ^^^ at2 A x 3 ^^^ at2 A x 4 := by
  simp [columnParity]

theorem at2_rho (A : Lanes) (x y : Fin 5) : at2 (rho A) x y = rol64 (at2 A x y) RHO[laneIndex x y].val := by
  simp [at2, rho]

theorem at2_pi (A : Lanes) (x y : Fin 5) : at2 (pi A) x y = at2 A (x + 3 * y) x := by simp [pi]

theorem at2_chi (A : Lanes) (x y : Fin 5) :
    at2 (chi A) x y = at2 A x y ^^^ (~~~ at2 A (x + 1) y &&& at2 A (x + 2) y) := by simp [chi]

theorem at2_iota (A : Lanes) (r : Fin 24) (x y : Fin 5) :
    at2 (iota A r) x y = if x = 0 ∧ y = 0 then at2 A x y ^^^ RC[r] else at2 A x y := by
  by_cases h : x = 0 ∧ y = 0
  · obtain ⟨rfl, rfl⟩ := h
    simp [at2, iota, laneIndex]
  · have hne : ¬ (0 = x.val + 5 * y.val) := by
      intro h0
      exact h ⟨Fin.ext (by simp; omega), Fin.ext (by simp; omega)⟩
    simp [at2, iota, laneIndex, h, hne]

/-- Every bit of a rotated lane (R91). -/
theorem getLsbD_rol64 (v : Lane) (n k : Nat) (hn : n < 64) (hk : k < 64) :
    (rol64 v n).getLsbD k = v.getLsbD ((k + (64 - n)) % 64) := by
  unfold rol64
  by_cases h0 : n = 0
  · subst h0
    have : (k + (64 - 0)) % 64 = k := by omega
    rw [if_pos rfl, this]
  · rw [if_neg h0, BitVec.getLsbD_or, BitVec.getLsbD_shiftLeft, BitVec.getLsbD_ushiftRight]
    by_cases hkn : k < n
    · have h1 : (k + (64 - n)) % 64 = 64 - n + k := by omega
      rw [h1, decide_eq_true hkn]
      simp
    · have h1 : (k + (64 - n)) % 64 = k - n := by omega
      have h2 : v.getLsbD (64 - n + k) = false := BitVec.getLsbD_of_ge v _ (by omega)
      rw [h1, h2, decide_eq_false hkn, decide_eq_true hk]
      simp only [Bool.not_false, Bool.and_self, Bool.true_and, Bool.or_false]

/-- The recurrence of R98 on the rounds done so far. -/
theorem permute_eq_foldl (A : Lanes) : permute A = (List.finRange 24).foldl round A := by rw [permute]

/-- A lane of the State after all its lanes were replaced. -/
theorem memRead8_mapLanes (f : Lanes → Lanes) (s : State) (x y : Fin 5) :
    memRead8 (laneIndex x y) (mapLanes f s) = at2 (f (b2l s.mem)) x y := by
  simp only [memRead8, mapLanes_mem, laneOfBytes_l2b, at2]

/-- A lane of `B2L(S)` is that lane of the State. -/
theorem at2_b2l (s : State) (x y : Fin 5) : at2 (b2l s.mem) x y = memRead8 (laneIndex x y) s := by
  simp [at2, b2l, b2lOf, memRead8]

end Sys2Proof.Machine
end

