-- ==== Sys2Proof/Laws/Sponge.lean ====
section
/-! SUPPORT. One lemma for each shared operation of the sponge controller: what ABSORB_BYTE, its fold and PAD do to the
bytes, the cursor and the rest of the state (spec/41_sponge.md R112, R113, R116, R117). -/

namespace Sys2Proof.Machine

/-! ## ABSORB_BYTE: the fields it does not write -/

@[simp] theorem absorbByte_finalized (s : State) (v : Byte) : (absorbByte s v).finalized = s.finalized := by
  simp only [absorbByte]; split <;> rfl

@[simp] theorem absorbByte_cmdIn (s : State) (v : Byte) : (absorbByte s v).cmdIn = s.cmdIn := by
  simp only [absorbByte]; split <;> rfl

@[simp] theorem absorbByte_rx (s : State) (v : Byte) : (absorbByte s v).rx = s.rx := by
  simp only [absorbByte]; split <;> rfl

@[simp] theorem absorbByte_respOut (s : State) (v : Byte) : (absorbByte s v).respOut = s.respOut := by
  simp only [absorbByte]; split <;> rfl

@[simp] theorem absorbByte_seq (s : State) (v : Byte) : (absorbByte s v).seq = s.seq := by
  simp only [absorbByte]; split <;> rfl

@[simp] theorem absorbByte_running (s : State) (v : Byte) : (absorbByte s v).running = s.running := by
  simp only [absorbByte]; split <;> rfl

@[simp] theorem absorbByte_resetIn (s : State) (v : Byte) : (absorbByte s v).resetIn = s.resetIn := by
  simp only [absorbByte]; split <;> rfl

/-! ## The fold -/

@[simp] theorem absorb_nil (s : State) : absorb [] s = s := rfl

@[simp] theorem absorb_cons (v : Byte) (vs : List Byte) (s : State) :
    absorb (v :: vs) s = absorb vs (absorbByte s v) := rfl

/-- The fold over a concatenation is the composition of the folds (R116). -/
theorem absorb_append (a b : List Byte) (s : State) : absorb (a ++ b) s = absorb b (absorb a s) := by
  simp [absorb, List.foldl_append]

@[simp] theorem absorb_finalized (data : List Byte) (s : State) : (absorb data s).finalized = s.finalized := by
  induction data generalizing s with
  | nil => rfl
  | cons v vs ih => simp [ih]

@[simp] theorem absorb_cmdIn (data : List Byte) (s : State) : (absorb data s).cmdIn = s.cmdIn := by
  induction data generalizing s with
  | nil => rfl
  | cons v vs ih => simp [ih]

@[simp] theorem absorb_rx (data : List Byte) (s : State) : (absorb data s).rx = s.rx := by
  induction data generalizing s with
  | nil => rfl
  | cons v vs ih => simp [ih]

@[simp] theorem absorb_respOut (data : List Byte) (s : State) : (absorb data s).respOut = s.respOut := by
  induction data generalizing s with
  | nil => rfl
  | cons v vs ih => simp [ih]

@[simp] theorem absorb_seq (data : List Byte) (s : State) : (absorb data s).seq = s.seq := by
  induction data generalizing s with
  | nil => rfl
  | cons v vs ih => simp [ih]

@[simp] theorem absorb_running (data : List Byte) (s : State) : (absorb data s).running = s.running := by
  induction data generalizing s with
  | nil => rfl
  | cons v vs ih => simp [ih]

@[simp] theorem absorb_resetIn (data : List Byte) (s : State) : (absorb data s).resetIn = s.resetIn := by
  induction data generalizing s with
  | nil => rfl
  | cons v vs ih => simp [ih]

/-! ## The cursor -/

theorem cursorInRange_iff (s : State) : cursorInRange s = true ↔ s.ratePos.toNat < 136 := by
  simp [cursorInRange]

theorem toNat_storeByte_ratePos {s : State} (h : s.ratePos.toNat < 136) (v : Byte) :
    (storeByte s v).ratePos.toNat = s.ratePos.toNat + 1 := by
  simp only [storeByte_ratePos, BitVec.toNat_add]
  have : (1#8).toNat = 1 := rfl
  omega

/-- The block is full when the byte just stored was its last, at 135. -/
theorem blockFull_storeByte {s : State} (h : s.ratePos.toNat < 136) (v : Byte) :
    blockFull (storeByte s v) = decide (s.ratePos.toNat = 135) := by
  have hp := toNat_storeByte_ratePos h v
  have h136 : (136#8).toNat = 136 := rfl
  simp only [blockFull, decide_eq_decide]
  constructor
  · intro he
    rw [he] at hp
    omega
  · intro he
    apply BitVec.eq_of_toNat_eq
    omega

/-- What ABSORB_BYTE does, in its two cases (R112). -/
theorem absorbByte_eq {s : State} (h : s.ratePos.toNat < 136) (v : Byte) :
    absorbByte s v =
      if s.ratePos.toNat = 135 then clearCursor (permuteState (storeByte s v)) else storeByte s v := by
  simp only [absorbByte, blockFull_storeByte h, decide_eq_true_eq]

/-- `rate_pos' = (rate_pos + 1) mod 136`. -/
theorem absorbByte_ratePos {s : State} (h : s.ratePos.toNat < 136) (v : Byte) :
    (absorbByte s v).ratePos.toNat = (s.ratePos.toNat + 1) % 136 := by
  rw [absorbByte_eq h]
  split
  · rename_i he
    simp [he]
  · rw [toNat_storeByte_ratePos h]
    omega

/-- `rate_pos' = (rate_pos + n) mod 136` (R113). -/
theorem absorb_ratePos {s : State} (h : s.ratePos.toNat < 136) (data : List Byte) :
    (absorb data s).ratePos.toNat = (s.ratePos.toNat + data.length) % 136 := by
  induction data generalizing s with
  | nil => simp [Nat.mod_eq_of_lt h]
  | cons v vs ih =>
    have h1 := absorbByte_ratePos h v
    rw [absorb_cons, ih (by omega), h1, List.length_cons]
    omega

/-! ## The bytes -/

theorem wf_xorByte {s : State} (hm : Memory.wf s.mem = true) {k : Nat} (hk : k < 200) (v : Byte) :
    Memory.wf (xorByte k v s).mem = true := Memory.wf_write hm hk

theorem read_xorByte {s : State} (hm : Memory.wf s.mem = true) (k : Nat) (v : Byte) (a : Nat) :
    Memory.read (xorByte k v s).mem a = Memory.read s.mem a ^^^ (if a = k then v else 0#8) := by
  rw [xorByte_mem, Memory.read_write hm]
  split
  · rename_i he
    rw [he]
  · simp

theorem wf_absorbByte {s : State} (hm : Memory.wf s.mem = true) (h : s.ratePos.toNat < 136) (v : Byte) :
    Memory.wf (absorbByte s v).mem = true := by
  rw [absorbByte_eq h]
  split
  · simp [wf_l2b]
  · exact wf_xorByte (s := s) hm (by omega) v

theorem wf_absorb {s : State} (hm : Memory.wf s.mem = true) (h : s.ratePos.toNat < 136) (data : List Byte) :
    Memory.wf (absorb data s).mem = true := by
  induction data generalizing s with
  | nil => exact hm
  | cons v vs ih =>
    refine ih (wf_absorbByte hm h v) ?_
    rw [absorbByte_ratePos h]
    omega

theorem wf_pad {s : State} (hm : Memory.wf s.mem = true) (h : s.ratePos.toNat < 136) :
    Memory.wf (pad s).mem = true :=
  wf_xorByte (wf_xorByte hm (by omega) _) (by decide) _

/-- Every byte of the padded State (R117, R118). -/
theorem read_pad {s : State} (hm : Memory.wf s.mem = true) (h : s.ratePos.toNat < 136) (a : Nat) :
    Memory.read (pad s).mem a =
      Memory.read s.mem a ^^^ (if a = s.ratePos.toNat then 0x06#8 else 0x00#8)
        ^^^ (if a = 135 then 0x80#8 else 0x00#8) := by
  rw [pad, read_xorByte (wf_xorByte hm (by omega) _), read_xorByte hm]
  rfl

/-! ## What ABSORB_BYTE reads

ABSORB_BYTE and its fold read the State and the cursor only. -/

theorem absorbByte_congr {s t : State} (hm : s.mem = t.mem) (hp : s.ratePos = t.ratePos) (v : Byte) :
    (absorbByte s v).mem = (absorbByte t v).mem ∧ (absorbByte s v).ratePos = (absorbByte t v).ratePos := by
  have hb : blockFull (storeByte s v) = blockFull (storeByte t v) := by
    unfold blockFull
    exact decide_eq_decide.mpr (by simp only [storeByte_ratePos, hp])
  simp only [absorbByte, hb]
  split <;> simp [hm, hp]

theorem absorb_congr {s t : State} (hm : s.mem = t.mem) (hp : s.ratePos = t.ratePos) (data : List Byte) :
    (absorb data s).mem = (absorb data t).mem ∧ (absorb data s).ratePos = (absorb data t).ratePos := by
  induction data generalizing s t with
  | nil => exact ⟨hm, hp⟩
  | cons v vs ih =>
    have h := absorbByte_congr hm hp v
    exact ih h.1 h.2

/-- The digest reads the State only. -/
theorem digest_congr {s t : State} (hm : s.mem = t.mem) : digest s = digest t := by simp [digest, hm]

end Sys2Proof.Machine
end

