-- ==== Sys2Proof/Laws/Exec.lean ====
section
/-! SUPPORT. What each instruction and each step can do: one lemma per meaning, and one inversion lemma for a step, so
that no later proof unfolds a meaning or the step. -/

namespace Sys2Proof.Machine

/-! ## The meanings -/

theorem exec_reset (s : State) : exec .reset s = .next (respond (.status .ok) (zeroState s)) := rfl

theorem exec_update_finalized {s : State} (h : s.finalized = true) (data : List Byte) :
    exec (.update data) s = .next (raiseInvalidState s) := by
  simp [exec, execUpdate, h]

theorem exec_update_absorbing {s : State} (h : s.finalized = false) (hp : s.ratePos.toNat < 136) (data : List Byte) :
    exec (.update data) s = .next (respond (.status .ok) (absorb data s)) := by
  simp [exec, execUpdate, h, (cursorInRange_iff s).mpr hp]

theorem exec_update_nil {s : State} (h : s.finalized = false) :
    exec (.update []) s = .next (respond (.status .ok) s) := by
  simp [exec, execUpdate, h]

theorem exec_finalize_finalized {s : State} (h : s.finalized = true) :
    exec .finalize s = .next (respond (.digest (digest s)) s) := by
  simp [exec, execFinalize, h]

theorem exec_finalize_absorbing {s : State} (h : s.finalized = false) (hp : s.ratePos.toNat < 136) :
    exec .finalize s = .next (respond (.digest (digest (setFinalized (permuteState (pad s)))))
      (setFinalized (permuteState (pad s)))) := by
  simp [exec, execFinalize, h, (cursorInRange_iff s).mpr hp]

theorem exec_theta (rnd : Fin 24) (s : State) : exec (.theta rnd) s = .next (mapLanes theta s) := rfl

theorem exec_rho (rnd : Fin 24) (s : State) : exec (.rho rnd) s = .next (mapLanes rho s) := rfl

theorem exec_pi (rnd : Fin 24) (s : State) : exec (.pi rnd) s = .next (mapLanes pi s) := rfl

theorem exec_chi (rnd : Fin 24) (s : State) : exec (.chi rnd) s = .next (mapLanes chi s) := rfl

theorem exec_iota (rnd : Fin 24) (s : State) : exec (.iota rnd) s = .next (mapLanes (fun A => iota A rnd) s) := rfl

/-- The function on lanes of a micro-operation; the identity for a command. -/
def laneFunction : Instr → Lanes → Lanes
  | .reset => id
  | .update _ => id
  | .finalize => id
  | .theta _ => theta
  | .rho _ => rho
  | .pi _ => pi
  | .chi _ => chi
  | .iota rnd => fun A => iota A rnd

/-- Every micro-operation replaces the lanes by its function of them, and does nothing else. -/
theorem exec_microOp {i : Instr} (h : i.isCommand = false) (s : State) :
    exec i s = .next (mapLanes (laneFunction i) s) := by
  cases i <;> simp_all [Instr.isCommand] <;> rfl

/-- Everything an instruction can do: one case per meaning and phase. -/
theorem exec_next_cases {i : Instr} {s t : State} (h : exec i s = .next t) :
    (i = .reset ∧ t = respond (.status .ok) (zeroState s))
    ∨ (∃ data, i = .update data ∧ s.finalized = true ∧ t = raiseInvalidState s)
    ∨ (∃ data, i = .update data ∧ s.finalized = false ∧ (s.ratePos.toNat < 136 ∨ data = [])
        ∧ t = respond (.status .ok) (absorb data s))
    ∨ (i = .finalize ∧ s.finalized = true ∧ t = respond (.digest (digest s)) s)
    ∨ (i = .finalize ∧ s.finalized = false ∧ s.ratePos.toNat < 136
        ∧ t = respond (.digest (digest (setFinalized (permuteState (pad s))))) (setFinalized (permuteState (pad s))))
    ∨ (i.isCommand = false ∧ t = mapLanes (laneFunction i) s) := by
  cases i with
  | reset =>
    rw [exec_reset, Host.Outcome.next.injEq] at h
    exact .inl ⟨rfl, h.symm⟩
  | update data =>
    by_cases hf : s.finalized = true
    · rw [exec_update_finalized hf, Host.Outcome.next.injEq] at h
      exact .inr (.inl ⟨data, rfl, hf, h.symm⟩)
    · have hf' : s.finalized = false := by simpa using hf
      by_cases hp : s.ratePos.toNat < 136
      · rw [exec_update_absorbing hf' hp, Host.Outcome.next.injEq] at h
        exact .inr (.inr (.inl ⟨data, rfl, hf', .inl hp, h.symm⟩))
      · cases data with
        | nil =>
          rw [exec_update_nil hf', Host.Outcome.next.injEq] at h
          exact .inr (.inr (.inl ⟨[], rfl, hf', .inr rfl, h.symm⟩))
        | cons v vs =>
          have hc : cursorInRange s = false := by simpa [cursorInRange] using hp
          simp [exec, execUpdate, hf', hc] at h
  | finalize =>
    by_cases hf : s.finalized = true
    · rw [exec_finalize_finalized hf, Host.Outcome.next.injEq] at h
      exact .inr (.inr (.inr (.inl ⟨rfl, hf, h.symm⟩)))
    · have hf' : s.finalized = false := by simpa using hf
      by_cases hp : s.ratePos.toNat < 136
      · rw [exec_finalize_absorbing hf' hp, Host.Outcome.next.injEq] at h
        exact .inr (.inr (.inr (.inr (.inl ⟨rfl, hf', hp, h.symm⟩))))
      · have hc : cursorInRange s = false := by simpa [cursorInRange] using hp
        simp [exec, execFinalize, hf', hc] at h
  | theta rnd =>
    rw [exec_microOp rfl, Host.Outcome.next.injEq] at h
    exact .inr (.inr (.inr (.inr (.inr ⟨rfl, h.symm⟩))))
  | rho rnd =>
    rw [exec_microOp rfl, Host.Outcome.next.injEq] at h
    exact .inr (.inr (.inr (.inr (.inr ⟨rfl, h.symm⟩))))
  | pi rnd =>
    rw [exec_microOp rfl, Host.Outcome.next.injEq] at h
    exact .inr (.inr (.inr (.inr (.inr ⟨rfl, h.symm⟩))))
  | chi rnd =>
    rw [exec_microOp rfl, Host.Outcome.next.injEq] at h
    exact .inr (.inr (.inr (.inr (.inr ⟨rfl, h.symm⟩))))
  | iota rnd =>
    rw [exec_microOp rfl, Host.Outcome.next.injEq] at h
    exact .inr (.inr (.inr (.inr (.inr ⟨rfl, h.symm⟩))))

/-- No instruction writes the input side or the sequencing state. -/
theorem exec_ports {i : Instr} {s t : State} (h : exec i s = .next t) :
    t.cmdIn = s.cmdIn ∧ t.rx = s.rx ∧ t.seq = s.seq ∧ t.running = s.running ∧ t.resetIn = s.resetIn := by
  obtain ⟨-, rfl⟩ | ⟨d, -, -, rfl⟩ | ⟨d, -, -, -, rfl⟩ | ⟨-, -, rfl⟩ | ⟨-, -, -, rfl⟩ | ⟨-, rfl⟩ := exec_next_cases h <;>
    simp

/-! ## The step -/

theorem onNext_next (s : State) (f : State → Host.Outcome State Fault Refusal) : onNext (.next s) f = f s := rfl

/-- Everything a step can do when it goes on, whatever happens to a whole frame: reset, one step of the sequencer, one
micro-step of the command in progress, a whole frame handed over, or a frame that is not whole taken in. -/
theorem stepWith_next_cases {start : Instr → State → Host.Outcome State Fault Refusal} {s t : State}
    (h : stepWith start s = .next t) :
    (s.resetIn = true ∧ t = hardwareReset s)
    ∨ (s.resetIn = false ∧ ∃ w i u, s.seq = some w ∧ decodeSeq w = .microOp i ∧ exec i s = .next u
        ∧ t = { u with seq := nextSeqWord w })
    ∨ (s.resetIn = false ∧ s.seq = none ∧ ∃ c, s.running = some c ∧ resume c s = .next t)
    ∨ (s.resetIn = false ∧ s.seq = none ∧ s.running = none ∧ ∃ i rest,
        decodeFrame (s.rx ++ s.cmdIn) = .complete i rest ∧ start i { s with rx := [], cmdIn := rest } = .next t)
    ∨ (s.resetIn = false ∧ s.seq = none ∧ s.running = none ∧ decodeFrame (s.rx ++ s.cmdIn) = .incomplete
        ∧ t = { s with rx := s.rx ++ s.cmdIn, cmdIn := [] }) := by
  unfold stepWith at h
  by_cases hr : s.resetIn = true
  · rw [if_pos hr, Host.Outcome.next.injEq] at h
    exact .inl ⟨hr, h.symm⟩
  rw [if_neg hr] at h
  have hr' : s.resetIn = false := by simpa using hr
  obtain hs | ⟨w, hs⟩ := Option.eq_none_or_eq_some s.seq
  · obtain hc | ⟨c, hc⟩ := Option.eq_none_or_eq_some s.running
    · simp only [hs, hc, stepCommand] at h
      rcases hd : decodeFrame (s.rx ++ s.cmdIn) with ⟨i, rest⟩ | _ | opc
      · simp only [hd] at h
        exact .inr (.inr (.inr (.inl ⟨hr', hs, hc, i, rest, rfl, by rw [hs, hc]; exact h⟩)))
      · simp only [hd, Host.Outcome.next.injEq] at h
        exact .inr (.inr (.inr (.inr ⟨hr', hs, hc, rfl, by rw [hs, hc]; exact h.symm⟩)))
      · simp [hd] at h
    · simp only [hs, hc] at h
      exact .inr (.inr (.inl ⟨hr', hs, c, hc, h⟩))
  · simp only [hs, stepSeq] at h
    rcases hd : decodeSeq w with i | v
    · simp only [hd] at h
      rcases he : exec i s with u | r | r
      · rw [he, onNext_next, Host.Outcome.next.injEq] at h
        exact .inr (.inl ⟨hr', w, i, u, hs, hd, he, h.symm⟩)
      · simp [he, onNext] at h
      · simp [he, onNext] at h
    · simp [hd] at h

/-- A step of an idle engine looks at the command stream only. -/
theorem stepWith_idle (start : Instr → State → Host.Outcome State Fault Refusal) {s : State} (hr : s.resetIn = false)
    (hs : s.seq = none) (hc : s.running = none) : stepWith start s = stepCommand start s := by
  simp [stepWith, hr, hs, hc]

/-- A step while the sequencer holds a control word is a step of the sequencer. -/
theorem stepWith_seq (start : Instr → State → Host.Outcome State Fault Refusal) {s : State} {w : Byte}
    (hr : s.resetIn = false) (hs : s.seq = some w) : stepWith start s = stepSeq w s := by
  simp [stepWith, hr, hs]

/-- A step of a command in progress, its permutation over, is one micro-step of it. -/
theorem stepWith_running (start : Instr → State → Host.Outcome State Fault Refusal) {s : State} {c : Running}
    (hr : s.resetIn = false) (hs : s.seq = none) (hc : s.running = some c) : stepWith start s = resume c s := by
  simp [stepWith, hr, hs, hc]

end Sys2Proof.Machine
end

