-- ==== Sys2Proof/Laws/PerInstr.lean ====
section
/-! SUPPORT. For every instruction: its first byte is the one spec/opcode_table.json gives its row, and its encoding has
the length of R69 (one byte, or `5 + LEN` for UPDATE). One lemma per constructor. -/

namespace Sys2Proof.Laws

/-- The `mask` of an instruction's row in spec/opcode_table.json. -/
def tableMask : Instr → Byte
  | .reset => 0xFF#8
  | .update _ => 0xFF#8
  | .finalize => 0xFF#8
  | .theta _ => 0x07#8
  | .rho _ => 0x07#8
  | .pi _ => 0x07#8
  | .chi _ => 0x07#8
  | .iota _ => 0x07#8

/-- The `match` of an instruction's row in spec/opcode_table.json. -/
def tableMatch : Instr → Byte
  | .reset => 0x00#8
  | .update _ => 0x01#8
  | .finalize => 0x02#8
  | .theta _ => 0x00#8
  | .rho _ => 0x01#8
  | .pi _ => 0x02#8
  | .chi _ => 0x03#8
  | .iota _ => 0x04#8

/-- The length of an instruction's encoding (R69, R72). -/
def encodedLength : Instr → Nat
  | .reset => 1
  | .update data => 5 + data.length
  | .finalize => 1
  | .theta _ => 1
  | .rho _ => 1
  | .pi _ => 1
  | .chi _ => 1
  | .iota _ => 1

/-- The first byte matches the row of the opcode table, and the encoding has the length of its format. -/
def EncodingFitsTheTable.Statement (i : Instr) : Prop :=
  ((encode i).head?.map fun b => b &&& tableMask i) = some (tableMatch i) ∧ (encode i).length = encodedLength i

theorem EncodingFitsTheTable.reset : EncodingFitsTheTable.Statement .reset := ⟨rfl, rfl⟩

theorem EncodingFitsTheTable.update (data : List Byte) : EncodingFitsTheTable.Statement (.update data) := by
  refine ⟨by simp [encode, bytesOfLen, tableMask, tableMatch], ?_⟩
  simp only [encode, bytesOfLen, encodedLength, List.length_append, List.length_cons, List.length_nil]

theorem EncodingFitsTheTable.finalize : EncodingFitsTheTable.Statement .finalize := ⟨rfl, rfl⟩

theorem EncodingFitsTheTable.theta (rnd : Fin 24) : EncodingFitsTheTable.Statement (.theta rnd) :=
  ⟨by revert rnd; decide, rfl⟩

theorem EncodingFitsTheTable.rho (rnd : Fin 24) : EncodingFitsTheTable.Statement (.rho rnd) :=
  ⟨by revert rnd; decide, rfl⟩

theorem EncodingFitsTheTable.pi (rnd : Fin 24) : EncodingFitsTheTable.Statement (.pi rnd) :=
  ⟨by revert rnd; decide, rfl⟩

theorem EncodingFitsTheTable.chi (rnd : Fin 24) : EncodingFitsTheTable.Statement (.chi rnd) :=
  ⟨by revert rnd; decide, rfl⟩

theorem EncodingFitsTheTable.iota (rnd : Fin 24) : EncodingFitsTheTable.Statement (.iota rnd) :=
  ⟨by revert rnd; decide, rfl⟩

end Sys2Proof.Laws
end

