-- ==== Sys2Proof/Laws/Run.lean ====
section
/-! SUPPORT. Sequences of steps, of micro-steps and of instructions: one step at the front, and two sequences joined. -/

namespace Sys2Proof.Machine

open Sys2Proof.Safety

/-- One step of a run. -/
theorem coreRun_next {n : Nat} {s t : State} (h : step s = .next t) :
    Host.Core.run Sys2Proof.core (n + 1) s = Host.Core.run Sys2Proof.core n t := by
  have hs : Sys2Proof.core.step s = .next t := h
  simp only [Host.Core.run, hs]

/-- A run of `a + b` steps, when the first `a` go on. -/
theorem coreRun_add (a b : Nat) (s t : State) (h : Host.Core.run Sys2Proof.core a s = .next t) :
    Host.Core.run Sys2Proof.core (a + b) s = Host.Core.run Sys2Proof.core b t := by
  induction a generalizing s with
  | zero => cases h; rw [Nat.zero_add]
  | succ n ih =>
    rw [Nat.add_right_comm]
    rcases hs : step s with u | r | r
    · rw [coreRun_next hs] at h ⊢
      exact ih u h
    · have hs' : Sys2Proof.core.step s = .fault r := hs
      simp [Host.Core.run, hs'] at h
    · have hs' : Sys2Proof.core.step s = .refused r := hs
      simp [Host.Core.run, hs'] at h

/-- One micro-step. -/
theorem microRun_next {n : Nat} {s t : State} (h : microStep s = .next t) : microRun (n + 1) s = microRun n t := by
  rw [microRun, h, onNext_next]

/-- `a + b` micro-steps, when the first `a` go on. -/
theorem microRun_add (a b : Nat) (s t : State) (h : microRun a s = .next t) :
    microRun (a + b) s = microRun b t := by
  induction a generalizing s with
  | zero => cases h; rw [Nat.zero_add]
  | succ n ih =>
    rw [Nat.add_right_comm]
    rcases hs : microStep s with u | r | r
    · rw [microRun_next hs] at h ⊢
      exact ih u h
    · rw [microRun, hs] at h
      cases h
    · rw [microRun, hs] at h
      cases h

/-- One instruction of a sequence. -/
theorem runAll_next {i : Instr} {is : List Instr} {s t : State} (h : exec i s = .next t) :
    runAll (i :: is) s = runAll is t := by
  rw [runAll, h, onNext_next]

/-- Two sequences joined, when the first goes on. -/
theorem runAll_append (a b : List Instr) (s t : State) (h : runAll a s = .next t) :
    runAll (a ++ b) s = runAll b t := by
  induction a generalizing s with
  | nil => cases h; rfl
  | cons i is ih =>
    rw [List.cons_append]
    rcases hs : exec i s with u | r | r
    · rw [runAll_next hs] at h ⊢
      exact ih u h
    · rw [runAll, hs] at h
      cases h
    · rw [runAll, hs] at h
      cases h

end Sys2Proof.Machine
end

