-- ==== Sys2Proof/Tests/Slice0.lean ====
section
/-! SUPPORT. The tests. Expected values are taken from the spec: the worked encodings of spec/30_encoding.md R78 and the
vectors of spec/95_test_vectors.md, named at each test. Then a witness for every statement that has hypotheses: concrete
states and operands that meet all of them together, at the ends of their ranges. -/

namespace Sys2Proof.Tests

open Sys2Proof.Machine Sys2Proof.Safety

-- One theorem at a time: three of them evaluate a whole permutation in the kernel.
set_option Elab.async false

/-! ## Small states -/

/-- An idle engine with a given State, cursor and flag. -/
def engineAt (mem : List Host.Cell) (pos : BitVec 8) (fin : Bool) : State :=
  { State.reset with mem := mem, ratePos := pos, finalized := fin }

/-- An idle engine whose command stream holds the given bytes. -/
def withStream (bytes : List Byte) : State := { State.reset with cmdIn := bytes }

/-- An engine whose sequencer holds a control word. -/
def withWord (w : Byte) : State := { State.reset with seq := some w }

/-- The next state of an outcome. -/
def nextOf : Host.Outcome State Fault Refusal → Option State
  | .next t => some t
  | .fault _ => none
  | .refused _ => none

/-- The lanes after one instruction on an idle engine with the given lanes. -/
def lanesAfter (i : Instr) (A : Lanes) : Option Lanes :=
  (nextOf (exec i (engineAt (l2b A) 0#8 false))).map fun t => b2l t.mem

/-- What a test looks at after one instruction: the first `n` State bytes, the cursor, the flag and the responses. -/
def seenAfter (n : Nat) (i : Instr) (s : State) : Option (List Byte × BitVec 8 × Bool × List Byte) :=
  (nextOf (exec i s)).map fun t => ((List.range n).map (Memory.read t.mem), t.ratePos, t.finalized, t.respOut)

/-! ## Well-formedness -/

/-- R65, R71: a payload of `2^32` bytes has no `LEN`. -/
theorem test_wellFormed_refuses_a_payload_too_long (data : List Byte) (h : data.length = 2 ^ 32) :
    (Instr.update data).wellFormed = false := by
  simp [Instr.wellFormed, h]

/-- R78: the payload of the worked encoding is well formed. -/
theorem test_wellFormed_accepts_abc : (Instr.update [0x61#8, 0x62#8, 0x63#8]).wellFormed = true := by decide

/-! ## Decoding, from words written out by hand -/

/-- R78, V-F1: `RESET` is `00`. -/
theorem test_decode_reset : decodeFrame [0x00#8] = .complete .reset [] := by decide

/-- V-F3 in the stream of 95_test_vectors.md section 4.2: after the `OPC` `01`, `LEN = 03 00 00 00`, then `61 62 63`, and
the `02` of the next frame. -/
theorem test_decode_update :
    decodeFrame [0b00000001#8, 0x03#8, 0x00#8, 0x00#8, 0x00#8, 0x61#8, 0x62#8, 0x63#8, 0x02#8]
      = .complete (.update [0x61#8, 0x62#8, 0x63#8]) [0x02#8] := by decide

/-- V-F5: `LEN` of 1,000,000 bytes is `40 42 0f 00`. -/
theorem test_decode_length : lenOfBytes 0x40#8 0x42#8 0x0F#8 0x00#8 = 1000000 := by decide

/-- R78, V-F6: `FINALIZE` is `02`. -/
theorem test_decode_finalize : decodeFrame [0b00000010#8] = .complete .finalize [] := by decide

/-- V-F10: every byte from `03` to `ff` in the `OPC` position is reserved. -/
theorem test_decode_reserved : ∀ n : Fin 256, 3 ≤ n.val →
    decodeFrame [BitVec.ofNat 8 n.val] = .reserved (BitVec.ofNat 8 n.val) := by decide +kernel

/-- A frame cut in its header, and in its payload (93 I17). -/
theorem test_decode_incomplete :
    decodeFrame [0x01#8, 0x03#8, 0x00#8] = .incomplete
    ∧ decodeFrame [0x01#8, 0x03#8, 0x00#8, 0x00#8, 0x00#8, 0x61#8, 0x62#8] = .incomplete := by decide

/-- Section 4.3: "THETA of round 0 is `0x00`", "THETA of round 1 is `0x08`". -/
theorem test_decode_theta :
    decodeSeq 0b00000_000#8 = .microOp (.theta 0) ∧ decodeSeq 0b00001_000#8 = .microOp (.theta 1) := by decide

/-- R72: `STEP = 0b001`, round 17. -/
theorem test_decode_rho : decodeSeq 0b10001_001#8 = .microOp (.rho 17) := by decide

/-- R72: `STEP = 0b010`, round 2. -/
theorem test_decode_pi : decodeSeq 0b00010_010#8 = .microOp (.pi 2) := by decide

/-- Section 4.3: "CHI of round 5 is `0x2B`". -/
theorem test_decode_chi : decodeSeq 0x2B#8 = .microOp (.chi 5) := by decide

/-- Section 4.3: "IOTA of round 0 is `0x04`", "IOTA of round 23 is `0xBC`". -/
theorem test_decode_iota :
    decodeSeq 0x04#8 = .microOp (.iota 0) ∧ decodeSeq 0xBC#8 = .microOp (.iota 23) := by decide

/-- R72: "never generated" are `STEP` 5 to 7 and `RND` 24 to 31. -/
theorem test_decode_never_generated :
    decodeSeq 0b00000_101#8 = .neverGenerated 0b00000_101#8 ∧ decodeSeq 0b10111_111#8 = .neverGenerated 0b10111_111#8
    ∧ decodeSeq 0b11000_000#8 = .neverGenerated 0b11000_000#8
    ∧ decodeSeq 0b11111_100#8 = .neverGenerated 0b11111_100#8 := by decide

/-- Opcode-table words: an operation code of R64 first, a control word otherwise. -/
theorem test_table_words :
    decodeTableWord 8 0x00 = some .reset ∧ decodeTableWord 8 0x01 = some (.update [])
    ∧ decodeTableWord 8 0x02 = some .finalize ∧ decodeTableWord 8 0x08 = some (.theta 1)
    ∧ decodeTableWord 8 0x09 = some (.rho 1) ∧ decodeTableWord 8 0x0A = some (.pi 1)
    ∧ decodeTableWord 8 0x03 = some (.chi 0) ∧ decodeTableWord 8 0x04 = some (.iota 0)
    ∧ decodeTableWord 8 0x05 = none := by decide

/-- V-F3 as a table word of 64 bits, byte 0 in bits 7:0. -/
theorem test_table_word_with_payload :
    decodeTableWord 64 0x6362610000000301 = some (.update [0x61#8, 0x62#8, 0x63#8]) := by decide

/-- The step after reset takes the command of a table word, and leaves nothing of it on the stream. -/
theorem test_fetch_command : step (State.reset.withFetchWord 8 0x00) = exec .reset State.reset := rfl

/-- The step after reset runs the control word of a table word; the next word is THETA of round 1, `0x08`. -/
theorem test_fetch_control_word :
    nextOf (step (State.reset.withFetchWord 8 0x04))
      = some { State.reset with mem := [(0, 0x01#8)], seq := some 0x08#8 } := by decide +kernel

/-! ## The permutation engine -/

/-- V-P1, all its rows whose rotation is by 0, by 1 with a wrap, and by 63. -/
theorem test_rol64 :
    rol64 0x0123456789ABCDEF#64 0 = 0x0123456789ABCDEF#64 ∧ rol64 0x8000000000000001#64 1 = 0x0000000000000003#64
    ∧ rol64 0x0123456789ABCDEF#64 63 = 0x8091A2B3C4D5E6F7#64 := by decide

/-- V-M2 rows 31, 32 and 135, and V-M3: a byte XOR as seen through the lane view. -/
theorem test_byte_in_lane :
    memRead8 3 (xorByte 31 0xAB#8 State.reset) = 0xAB00000000000000#64
    ∧ memRead8 4 (xorByte 32 0xAB#8 State.reset) = 0x00000000000000AB#64
    ∧ memRead8 16 (xorByte 135 0x80#8 State.reset) = 0x8000000000000000#64 := by decide

/-- THETA, V-P2b: the rotation by 1 wraps. -/
theorem test_theta :
    lanesAfter (.theta 0) (ofCoords fun x y => if x = 2 ∧ y = 3 then 0x8000000000000000#64 else 0#64)
      = some (ofCoords fun x y =>
          if x = 1 then 0x0000000000000001#64
          else if x = 3 ∨ (x = 2 ∧ y = 3) then 0x8000000000000000#64 else 0#64) := by decide +kernel

/-- RHO, V-P4: every lane holds bits 63 and 0. -/
theorem test_rho :
    lanesAfter (.rho 0) (ofCoords fun _ _ => 0x8000000000000001#64)
      = some #v[0x8000000000000001#64, 0x0000000000000003#64, 0x6000000000000000#64, 0x0000000018000000#64,
          0x000000000C000000#64, 0x0000001800000000#64, 0x0000180000000000#64, 0x0000000000000060#64,
          0x00C0000000000000#64, 0x0000000000180000#64, 0x000000000000000C#64, 0x0000000000000600#64,
          0x00000C0000000000#64, 0x0000000003000000#64, 0x000000C000000000#64, 0x0000030000000000#64,
          0x0000300000000000#64, 0x000000000000C000#64, 0x0000000000300000#64, 0x0000000000000180#64,
          0x0000000000060000#64, 0x0000000000000006#64, 0x3000000000000000#64, 0x0180000000000000#64,
          0x0000000000006000#64] := by decide +kernel

/-- PI, V-P5: the index of the lane each lane came from. -/
theorem test_pi :
    lanesAfter (.pi 0) (Vector.ofFn fun i => BitVec.ofNat 64 i.val)
      = some (#v[0, 6, 12, 18, 24, 3, 9, 10, 16, 22, 1, 7, 13, 19, 20, 4, 5, 11, 17, 23, 2, 8, 14, 15, 21].map
          (BitVec.ofNat 64)) := by decide +kernel

/-- CHI, V-P6a: one row of five different lanes. -/
theorem test_chi :
    (lanesAfter (.chi 0) (#v[0#64, 0#64, 0#64, 0#64, 0#64, 0x00000000FFFFFFFF#64, 0x0F0F0F0F0F0F0F0F#64,
        0x3333333333333333#64, 0x5555555555555555#64, 0xFFFF0000FFFF0000#64] ++ Vector.replicate 15 0#64)).map
          (fun A => (A.toList.drop 5).take 5)
      = some [0x30303030CFCFCFCF#64, 0x4B4B4B4B4B4B4B4B#64, 0x9999333399993333#64, 0x555555555555AAAA#64,
          0xF0F00F0FFFFF0000#64] := by decide +kernel

/-- IOTA, V-P7: rounds 2 and 23 on lane 0 of the array `G`. -/
theorem test_iota :
    (lanesAfter (.iota 2) (Vector.replicate 25 0x0123456789ABCDEF#64)).map (fun A => (A[0], A[1]))
      = some (0x8123456789AB4D65#64, 0x0123456789ABCDEF#64)
    ∧ (lanesAfter (.iota 23) (Vector.replicate 25 0x0123456789ABCDEF#64)).map (fun A => A[0])
      = some 0x8123456709AB4DE7#64 := by decide +kernel

/-! ## The sponge controller -/

/-- RESET in the Finalized state, with a cursor and a State that are not zero (R111; V-F1 for the response). -/
theorem test_reset :
    seenAfter 2 .reset (engineAt [(0, 0xFF#8), (199, 0x01#8)] 135#8 true)
      = some ([0x00#8, 0x00#8], 0#8, false, [0x00#8]) := by decide

/-- UPDATE "abc" (V-F3; V-S2: `S[0..2] = 61 62 63`, `rate_pos = 3`); and UPDATE in the Finalized state, one byte and
none (V-F8, V-F9): `01`, and nothing written. -/
theorem test_update_stores_or_is_rejected :
    seenAfter 4 (.update [0x61#8, 0x62#8, 0x63#8]) State.reset
      = some ([0x61#8, 0x62#8, 0x63#8, 0x00#8], 3#8, false, [0x00#8])
    ∧ seenAfter 2 (.update [0x78#8]) (engineAt [(0, 0x11#8)] 3#8 true)
      = some ([0x11#8, 0x00#8], 3#8, true, [0x01#8])
    ∧ seenAfter 2 (.update []) (engineAt [(0, 0x11#8)] 3#8 true)
      = some ([0x11#8, 0x00#8], 3#8, true, [0x01#8]) := by decide

/-- The byte that fills the block: with the State all zero after it, the State is the `PERMUTE(Z)` of V-P9, whose lane 0
is `F1258F7940E1DDE7`, and the cursor is 0. -/
theorem test_update_fills_the_block :
    seenAfter 8 (.update [0x80#8]) (engineAt [(135, 0x80#8)] 135#8 false)
      = some ([0xE7#8, 0xDD#8, 0xE1#8, 0x40#8, 0x79#8, 0x8F#8, 0x25#8, 0xF1#8], 0#8, false, [0x00#8]) := by decide +kernel

/-- FINALIZE of the empty input (V-S1, V-F6): the digest the source gives. -/
theorem test_finalize_empty :
    (seenAfter 0 .finalize State.reset)
      = some ([], 0#8, true,
          [0x00#8, 0xa7#8, 0xff#8, 0xc6#8, 0xf8#8, 0xbf#8, 0x1e#8, 0xd7#8, 0x66#8, 0x51#8, 0xc1#8, 0x47#8, 0x56#8,
           0xa0#8, 0x61#8, 0xd6#8, 0x62#8, 0xf5#8, 0x80#8, 0xff#8, 0x4d#8, 0xe4#8, 0x3b#8, 0x49#8, 0xfa#8, 0x82#8,
           0xd8#8, 0x0a#8, 0x4b#8, 0x80#8, 0xf8#8, 0x43#8, 0x4a#8]) := by decide +kernel

/-- FINALIZE with the cursor at 135 (V-S4): `S[k] = k + 1` for the 135 bytes absorbed, both padding bytes into
`S[135]`. -/
theorem test_finalize_pads_one_byte :
    (seenAfter 0 .finalize (engineAt ((List.range 135).map fun k => (k, BitVec.ofNat 8 (k + 1))) 135#8 false))
      = some ([], 135#8, true,
          [0x00#8, 0x2e#8, 0x2a#8, 0x94#8, 0x75#8, 0xc8#8, 0x97#8, 0xf1#8, 0x46#8, 0x25#8, 0x30#8, 0xdd#8, 0x45#8,
           0x3f#8, 0xbd#8, 0xfd#8, 0x54#8, 0x67#8, 0x07#8, 0x63#8, 0x32#8, 0xe5#8, 0x7e#8, 0xc8#8, 0x84#8, 0x43#8,
           0x95#8, 0xc3#8, 0x45#8, 0x6a#8, 0x94#8, 0x0c#8, 0xfd#8]) := by decide +kernel

/-! ## Witnesses

For each statement that has hypotheses, what meets them. -/

theorem witness_resetInvariant : StateInv State.reset where
  memWf := by decide
  cursor := by decide
  rxPartial := by decide
  seqGenerated := by intro w h; cases h
  runningAbsorbing := by intro h; exact absurd rfl h

theorem witness_resetIdle : Idle State.reset := ⟨rfl, rfl, rfl⟩

theorem witness_CommandFrameRoundTrip :
    (Instr.update [0x61#8]).isCommand = true ∧ (Instr.update [0x61#8]).wellFormed = true := by decide

theorem witness_FrameDecodesFromItsEncodingOnly :
    decodeFrame [0x01#8, 0x01#8, 0x00#8, 0x00#8, 0x00#8, 0x61#8, 0x02#8] = .complete (.update [0x61#8]) [0x02#8] := by
  decide

theorem witness_StepRunsTheWaitingCommand :
    Idle (withStream [0x01#8, 0x01#8, 0x00#8, 0x00#8, 0x00#8, 0x61#8, 0x02#8])
    ∧ (Instr.update [0x61#8]).isCommand = true ∧ (Instr.update [0x61#8]).wellFormed = true
    ∧ (withStream [0x01#8, 0x01#8, 0x00#8, 0x00#8, 0x00#8, 0x61#8, 0x02#8]).rx
        ++ (withStream [0x01#8, 0x01#8, 0x00#8, 0x00#8, 0x00#8, 0x61#8, 0x02#8]).cmdIn
      = encode (.update [0x61#8]) ++ [0x02#8] :=
  ⟨⟨rfl, rfl, rfl⟩, by decide⟩

/-- The first and the last control word of a permutation. -/
theorem witness_StepRunsTheSequencerWord :
    (∃ t, (withWord 0x00#8).resetIn = false ∧ (withWord 0x00#8).seq = some 0x00#8
      ∧ (Instr.theta 0).isCommand = false ∧ encode (.theta 0) = [0x00#8] ∧ exec (.theta 0) (withWord 0x00#8) = .next t)
    ∧ ∃ t, (withWord 0xBC#8).resetIn = false ∧ (withWord 0xBC#8).seq = some 0xBC#8
      ∧ (Instr.iota 23).isCommand = false ∧ encode (.iota 23) = [0xBC#8]
      ∧ exec (.iota 23) (withWord 0xBC#8) = .next t :=
  ⟨⟨_, rfl, rfl, rfl, by decide, exec_theta 0 _⟩, ⟨_, rfl, rfl, rfl, by decide, exec_iota 23 _⟩⟩

/-- A header cut after two bytes, and an empty stream. -/
theorem witness_PartialFrameWaitsForTheRest :
    (Idle (withStream [0x01#8, 0x01#8])
      ∧ encode (.update [0x61#8]) = [0x01#8, 0x01#8] ++ [0x00#8, 0x00#8, 0x00#8, 0x61#8]
      ∧ [0x00#8, 0x00#8, 0x00#8, 0x61#8] ≠ []
      ∧ (withStream [0x01#8, 0x01#8]).rx ++ (withStream [0x01#8, 0x01#8]).cmdIn = [0x01#8, 0x01#8])
    ∧ Idle (withStream []) ∧ encode .reset = [] ++ [0x00#8] ∧ (withStream []).rx ++ (withStream []).cmdIn = [] :=
  ⟨⟨⟨rfl, rfl, rfl⟩, by decide⟩, ⟨rfl, rfl, rfl⟩, by decide⟩

/-- A permutation in progress, and a command in progress, with bytes waiting. -/
theorem witness_BusyEngineTakesNoByte :
    (∃ t, (withWord 0x00#8).resetIn = false ∧ (withWord 0x00#8).seq ≠ none ∧ step (withWord 0x00#8) = .next t)
    ∧ ∃ t, { withStream [0x02#8] with running := some (.update [0x61#8]) }.resetIn = false
      ∧ { withStream [0x02#8] with running := some (.update [0x61#8]) }.running ≠ none
      ∧ microStep { withStream [0x02#8] with running := some (.update [0x61#8]) } = .next t :=
  ⟨⟨_, rfl, by decide, rfl⟩, ⟨_, rfl, by decide, rfl⟩⟩

/-- The lowest and the highest reserved code. -/
theorem witness_ReservedOpcodeIsRefused :
    (Idle (withStream [0x03#8]) ∧ (withStream [0x03#8]).rx = [] ∧ (withStream [0x03#8]).cmdIn = 0x03#8 :: []
      ∧ 3 ≤ (0x03#8).toNat)
    ∧ Idle (withStream [0xFF#8, 0x00#8]) ∧ (withStream [0xFF#8, 0x00#8]).rx = []
      ∧ (withStream [0xFF#8, 0x00#8]).cmdIn = 0xFF#8 :: [0x00#8] ∧ 3 ≤ (0xFF#8).toNat :=
  ⟨⟨⟨rfl, rfl, rfl⟩, by decide⟩, ⟨rfl, rfl, rfl⟩, by decide⟩

/-- The lowest `STEP` and the lowest `RND` that are never generated. -/
theorem witness_NeverGeneratedControlWordIsRefused :
    ((withWord 0x05#8).resetIn = false ∧ (withWord 0x05#8).seq = some 0x05#8 ∧ 5 ≤ (0x05#8).toNat % 8)
    ∧ (withWord 0xC0#8).resetIn = false ∧ (withWord 0xC0#8).seq = some 0xC0#8 ∧ 24 ≤ (0xC0#8).toNat / 8 := by decide

theorem witness_CommandStreamIsTheCompositionOfItsCommands :
    (∀ i ∈ [Instr.reset, .update [0x61#8], .finalize], i.isCommand = true ∧ i.wellFormed = true)
    ∧ StateInv (withStream (commandStream [.reset, .update [0x61#8], .finalize] ++ [0x01#8]))
    ∧ Idle (withStream (commandStream [.reset, .update [0x61#8], .finalize] ++ [0x01#8]))
    ∧ (withStream (commandStream [.reset, .update [0x61#8], .finalize] ++ [0x01#8])).rx = [] :=
  ⟨by decide, ⟨by decide, by decide, by decide, fun w h => (by cases h), fun h => absurd rfl h⟩, ⟨rfl, rfl, rfl⟩, rfl⟩

theorem witness_Rol64MovesEachBit : (0 < 64 ∧ 63 < 64) ∧ (63 < 64 ∧ 0 < 64) := by decide

theorem witness_ThetaXorsTheColumnParities :
    ∃ C : Fin 5 → Lane, ∀ x, C x = laneAt State.reset x 0 ^^^ laneAt State.reset x 1 ^^^ laneAt State.reset x 2
      ^^^ laneAt State.reset x 3 ^^^ laneAt State.reset x 4 :=
  ⟨_, fun _ => rfl⟩

/-- Two engines with one State and different cursors and flags. -/
theorem witness_MicroOperationReadsOnlyTheLanes :
    ∃ t t', (Instr.iota 23).isCommand = false
      ∧ (∀ a < 200, Memory.read (engineAt [(0, 0x01#8)] 0#8 false).mem a
          = Memory.read (engineAt [(0, 0x01#8)] 135#8 true).mem a)
      ∧ exec (.iota 23) (engineAt [(0, 0x01#8)] 0#8 false) = .next t
      ∧ exec (.iota 23) (engineAt [(0, 0x01#8)] 135#8 true) = .next t' :=
  ⟨_, _, rfl, fun _ _ => rfl, exec_iota 23 _, exec_iota 23 _⟩

/-- The arrays of a permutation, from any first array. -/
theorem witness_PermuteIsTwentyFourRounds (A0 : Lanes) :
    ∃ A : Nat → Lanes, A 0 = A0 ∧ ∀ r : Fin 24, A (r.val + 1) = Machine.round (A r.val) r :=
  ⟨fun n => Nat.rec A0 (fun k B => if h : k < 24 then Machine.round B ⟨k, h⟩ else B) n, rfl, fun r => dif_pos r.isLt⟩

theorem witness_SequencerProgramIsPermuteState :
    (withWord 0x00#8).resetIn = false ∧ (withWord 0x00#8).seq = some 0x00#8 := by decide

/-- A State with its first and its last byte listed, for the statements over a canonical State
(BytesAndLanesAreInverse, ByteXorIsALaneXor, MemoryPrimitivesReadBackWhatWasWritten). -/
theorem witness_canonicalState : Memory.wf (engineAt [(0, 0x61#8), (199, 0xFF#8)] 0#8 false).mem = true := by decide

theorem witness_ResetForgetsThePast :
    ∀ i ∈ [Instr.update [0x61#8], .finalize, .update [], .finalize], i.isCommand = true := by decide

/-- Both sides of the wrap: the cursor at 134, and at 135 with the stored State. -/
theorem witness_AbsorbByteStoresThenPermutesOnTheWrap :
    (Memory.wf (engineAt [] 134#8 false).mem = true ∧ (engineAt [] 134#8 false).ratePos.toNat < 135)
    ∧ Memory.wf (engineAt [] 135#8 false).mem = true ∧ (engineAt [] 135#8 false).ratePos.toNat = 135
      ∧ Memory.wf [(135, 0x61#8)] = true ∧ XoredFrom 135 [0x61#8] (engineAt [] 135#8 false) [(135, 0x61#8)] := by
  unfold XoredFrom; decide +kernel

theorem witness_UpdateAbsorbsItsPayload :
    (engineAt [] 135#8 false).finalized = false ∧ (engineAt [] 135#8 false).ratePos.toNat ≤ 135 := by decide

/-- The last payload that does not fill the block: two bytes at 133. -/
theorem witness_UpdateWithinABlockStoresAtTheCursor :
    ∃ t, Memory.wf (engineAt [] 133#8 false).mem = true ∧ (engineAt [] 133#8 false).finalized = false
      ∧ (engineAt [] 133#8 false).ratePos.toNat + [0x61#8, 0x62#8].length < 136
      ∧ exec (.update [0x61#8, 0x62#8]) (engineAt [] 133#8 false) = .next t :=
  ⟨_, rfl, rfl, by decide, exec_update_absorbing rfl (by decide) _⟩

/-- The first payload that fills the block (one byte at 135), and one that goes on after it. -/
theorem witness_UpdateThatFillsTheBlockPermutes :
    (Memory.wf (engineAt [] 135#8 false).mem = true ∧ (engineAt [] 135#8 false).finalized = false
      ∧ (engineAt [] 135#8 false).ratePos.toNat ≤ 135
      ∧ 136 ≤ (engineAt [] 135#8 false).ratePos.toNat + [0x61#8].length
      ∧ Memory.wf [(135, 0x61#8)] = true
      ∧ XoredFrom 135 ([0x61#8].take (136 - 135)) (engineAt [] 135#8 false) [(135, 0x61#8)])
    ∧ 136 ≤ (engineAt [] 135#8 false).ratePos.toNat + [0x61#8, 0x62#8].length
      ∧ XoredFrom 135 ([0x61#8, 0x62#8].take (136 - 135)) (engineAt [] 135#8 false) [(135, 0x61#8)] := by
  unfold XoredFrom; decide +kernel

/-- For ZeroLengthUpdateIsANoOperation, StreamingInvariance and, with the cursor at 136, CursorOutOfRangeStops. -/
theorem witness_absorbingStates :
    State.reset.finalized = false ∧ (engineAt [] 135#8 false).finalized = false
    ∧ (engineAt [] 135#8 false).ratePos.toNat ≤ 135
    ∧ (engineAt [] 136#8 false).finalized = false ∧ 136 ≤ (engineAt [] 136#8 false).ratePos.toNat := by decide

/-- For UpdateAfterFinalizeIsRejected, FinalizeAgainReturnsTheDigest and FinalizedStateIsConstant. -/
theorem witness_finalizedState :
    (engineAt [(0, 0x61#8)] 3#8 true).finalized = true
    ∧ ∀ i ∈ [Instr.finalize, .update [], .update [0x61#8], .finalize], i.isCommand = true ∧ i ≠ .reset := by decide

/-- PAD and FINALIZE with the cursor at 0 and at 135, with the padded State (PadXorsTheTwoPaddingBytes,
PadAtTheLastByteXorsBoth, FinalizePadsPermutesAndResponds). -/
theorem witness_FinalizePadsPermutesAndResponds :
    (Memory.wf (engineAt [] 0#8 false).mem = true ∧ (engineAt [] 0#8 false).finalized = false
      ∧ (engineAt [] 0#8 false).ratePos.toNat ≤ 135
      ∧ Memory.wf [(0, 0x06#8), (135, 0x80#8)] = true ∧ Padded (engineAt [] 0#8 false) [(0, 0x06#8), (135, 0x80#8)])
    ∧ Memory.wf (engineAt [] 135#8 false).mem = true ∧ (engineAt [] 135#8 false).finalized = false
      ∧ (engineAt [] 135#8 false).ratePos.toNat = 135
      ∧ Memory.wf [(135, 0x86#8)] = true ∧ Padded (engineAt [] 135#8 false) [(135, 0x86#8)] := by
  unfold Padded; decide +kernel

/-- DIGEST: two States that differ only above byte 31. -/
theorem witness_DigestIsTheFirstThirtyTwoBytes :
    ∀ j < 32, Memory.read (engineAt [(0, 0x61#8), (32, 0x01#8)] 0#8 true).mem j
      = Memory.read (engineAt [(0, 0x61#8)] 0#8 true).mem j := by decide

/-- A command of each row of the transition table has a next state, so the statements whose premise is one
(SpongeTransitionTable, OnlyResetAndFinalizeWriteTheFlag, InvalidStateIffUpdateWhenFinalized) say something of each. -/
theorem witness_SpongeTransitionTable :
    (∃ t, exec .reset (engineAt [] 0#8 true) = .next t) ∧ (∃ t, exec .reset State.reset = .next t)
    ∧ (∃ t, exec (.update [0x61#8]) State.reset = .next t)
    ∧ (∃ t, exec (.update [0x61#8]) (engineAt [] 0#8 true) = .next t)
    ∧ (∃ t, exec .finalize State.reset = .next t) ∧ ∃ t, exec .finalize (engineAt [] 0#8 true) = .next t :=
  ⟨⟨_, exec_reset _⟩, ⟨_, exec_reset _⟩, ⟨_, exec_update_absorbing rfl (by decide) _⟩,
    ⟨_, exec_update_finalized rfl _⟩, ⟨_, exec_finalize_absorbing rfl (by decide)⟩, ⟨_, exec_finalize_finalized rfl⟩⟩

/-- An UPDATE, and a RESET, that change the cursor. -/
theorem witness_OnlyResetAndUpdateWriteTheCursor :
    (∃ t, exec (.update [0x61#8]) State.reset = .next t ∧ t.ratePos ≠ State.reset.ratePos)
    ∧ ∃ t, exec .reset (engineAt [] 3#8 true) = .next t ∧ t.ratePos ≠ (engineAt [] 3#8 true).ratePos :=
  ⟨⟨_, exec_update_absorbing rfl (by decide) _, by decide⟩, ⟨_, exec_reset _, by decide⟩⟩

/-- A state of the invariant with a permutation in progress, and one with an UPDATE in progress, and their steps
(StepKeepsTheInvariant, MicroStepKeepsTheInvariant; EveryInstructionCompletes and OnlyAReservedOpcodeStopsAStep have
witness_resetInvariant). -/
theorem witness_StepKeepsTheInvariant :
    (∃ t, StateInv (withWord 0xBC#8) ∧ step (withWord 0xBC#8) = .next t)
    ∧ ∃ t, StateInv { engineAt [] 134#8 false with running := some (.update [0x61#8]) }
      ∧ microStep { engineAt [] 134#8 false with running := some (.update [0x61#8]) } = .next t := by
  refine ⟨⟨_, ⟨by decide, by decide, by decide, ?_, fun _ => rfl⟩, rfl⟩,
    ⟨_, ⟨by decide, by decide, by decide, ?_, fun _ => rfl⟩, rfl⟩⟩
  · intro w h
    cases h
    exact ⟨.iota 23, by decide⟩
  · intro w h
    cases h

theorem witness_MicroStepsComeToTheAtomicCommand :
    StateInv (withStream [0x02#8]) ∧ Idle (withStream [0x02#8]) ∧ Instr.finalize.isCommand = true
    ∧ Instr.finalize.wellFormed = true
    ∧ (withStream [0x02#8]).rx ++ (withStream [0x02#8]).cmdIn = encode .finalize ++ [] :=
  ⟨⟨by decide, by decide, by decide, fun w h => (by cases h), fun h => absurd rfl h⟩, ⟨rfl, rfl, rfl⟩, by decide⟩

/-- A session that is open at its end, and one that is closed (SessionDeterminesTheState,
ResponseStreamOfEverySession). -/
theorem witness_SessionDeterminesTheState :
    (∀ i ∈ [Instr.finalize, .reset, .update [0x61#8], .update [0x62#8]], i.isCommand = true)
    ∧ Session.afterAll [.finalize, .reset, .update [0x61#8], .update [0x62#8]] .start = ⟨false, [0x61#8, 0x62#8]⟩
    ∧ (∀ i ∈ [Instr.update [0x61#8], .finalize, .update [0x62#8]], i.isCommand = true)
    ∧ Session.afterAll [.update [0x61#8], .finalize, .update [0x62#8]] .start = ⟨true, [0x61#8]⟩ := by decide

/-- The session just started, and an open and a closed session of every message, each with a state that agrees with it. -/
theorem witness_EveryCommandKeepsTheSession (m : List Byte) :
    Session.start.Agrees State.reset ∧ Session.Agrees ⟨false, m⟩ (absorbedFromReset m)
    ∧ Session.Agrees ⟨true, m⟩ (finalizedFromReset m) ∧ Instr.finalize.isCommand = true := by
  have hp : (absorb m State.reset).ratePos.toNat = m.length % 136 := by
    rw [absorb_ratePos (by decide)]
    simp [State.reset]
  refine ⟨⟨rfl, rfl, rfl⟩, ⟨absorb_finalized m State.reset, hp, rfl⟩, ⟨rfl, ?_, rfl⟩, rfl⟩
  simpa [finalizedFromReset, absorbedFromReset] using hp

end Sys2Proof.Tests
end

/-! PROOFS. The State as 200 bytes and as 25 lanes (spec/20_memory.md R43 to R45). -/

namespace Sys2Proof.Machine

/-- Concatenation is a sum: the low word, and the high word weighted by the size of the low one. -/
theorem toNat_append_eq_add {p q : Nat} (x : BitVec p) (y : BitVec q) :
    (x ++ y).toNat = y.toNat + 2 ^ q * x.toNat := by
  rw [BitVec.toNat_append, ← Nat.shiftLeft_add_eq_or_of_lt y.isLt, Nat.shiftLeft_eq, Nat.mul_comm, Nat.add_comm]

/-- The sum of R43, for any byte array. -/
theorem toNat_laneOfBytes (T : Nat → Byte) (i : Nat) :
    (laneOfBytes T i).toNat =
      (T (8 * i)).toNat + 2 ^ 8 * (T (8 * i + 1)).toNat + 2 ^ 16 * (T (8 * i + 2)).toNat
      + 2 ^ 24 * (T (8 * i + 3)).toNat + 2 ^ 32 * (T (8 * i + 4)).toNat + 2 ^ 40 * (T (8 * i + 5)).toNat
      + 2 ^ 48 * (T (8 * i + 6)).toNat + 2 ^ 56 * (T (8 * i + 7)).toNat := by
  simp only [laneOfBytes, toNat_append_eq_add]
  omega

/-- Lane `i` of the lane view is made of the bytes `8i .. 8i+7` (R43). -/
theorem getElem_b2l (m : List Host.Cell) (i : Fin 25) : (b2l m)[i] = laneOfBytes (Memory.read m) i.val := by
  simp [b2l, b2lOf]

/-- Lanes written as bytes are read back (R45). -/
theorem b2l_l2b (A : Lanes) : b2l (l2b A) = A := by
  refine Vector.ext fun i hi => ?_
  exact (getElem_b2l (l2b A) ⟨i, hi⟩).trans (laneOfBytes_l2b A ⟨i, hi⟩)

/-- Byte `k` of a canonical State is byte `k` of its lane view; from 200 on both read as the unlisted byte. -/
theorem read_l2b_b2l {m : List Host.Cell} (hm : Memory.wf m = true) (k : Nat) :
    Memory.read (l2b (b2l m)) k = Memory.read m k := by
  rw [read_l2b]
  by_cases hk : k < 200
  · rw [if_pos hk, b2l, byteOfLanes_b2lOf _ hk]
  · rw [if_neg hk, Memory.read_above hm (by omega)]

/-- A canonical State is restored from its lanes (R45): the two lists are canonical and read alike. -/
theorem l2b_b2l {m : List Host.Cell} (hm : Memory.wf m = true) : l2b (b2l m) = m :=
  Memory.eq_of_read_eq (wf_l2b (b2l m)) hm (read_l2b_b2l hm)

/-- Byte `j` of lane `i` in the byte view is the lane's slice `8j+7 .. 8j` (R44). -/
theorem read_l2b_eq_extractLsb' (A : Lanes) (i : Fin 25) {j : Nat} (hj : j < 8) :
    Memory.read (l2b A) (8 * i.val + j) = A[i].extractLsb' (8 * j) 8 := by
  rw [← laneOfBytes_l2b A i, extractLsb'_laneOfBytes _ _ _ hj]

/-- Settles O24: each direction of R45 is a lemma on the lane view. -/
theorem bytesAndLanesAreInverse : Obligations.BytesAndLanesAreInverse := by
  unfold Obligations.BytesAndLanesAreInverse
  exact ⟨b2l_l2b, fun _ => l2b_b2l⟩

/-- Settles O25: a lane is the concatenation of its eight bytes, so its value is their weighted sum and its slices are
the bytes; the byte view has the same slices because its lanes are `A`. -/
theorem lanesAreLittleEndian : Obligations.LanesAreLittleEndian := by
  unfold Obligations.LanesAreLittleEndian
  refine ⟨fun m i => ?_, fun m i j hj => ?_, fun A i j hj => read_l2b_eq_extractLsb' A i hj⟩
  · rw [getElem_b2l, toNat_laneOfBytes]
  · rw [getElem_b2l, extractLsb'_laneOfBytes _ _ _ hj]

end Sys2Proof.Machine

/-! PROOFS. PERMUTE as the recurrence over its rounds (spec/40_permutation.md R98). -/

namespace Sys2Proof.Machine

/-- A sequence that takes the steps of a fold, from the fold's start, ends at the fold's result. -/
theorem foldl_eq_of_recurrence {α : Type*} {n : Nat} (f : α → Fin n → α) (A : Nat → α)
    (hstep : ∀ r : Fin n, A (r.val + 1) = f (A r.val) r) : Fin.foldl n f (A 0) = A n := by
  induction n with
  | zero => rw [Fin.foldl_zero]
  | succ n ih =>
    have hprefix : Fin.foldl n (fun B r => f B r.castSucc) (A 0) = A n := ih _ fun r => hstep r.castSucc
    have hlast : A (n + 1) = f (A n) (Fin.last n) := hstep (Fin.last n)
    rw [Fin.foldl_succ_last, hprefix, hlast]

/-- Settles O22: PERMUTE folds ROUND over the round indices 0 to 23, and the sequence takes the steps of that fold. -/
theorem permuteIsTwentyFourRounds : Obligations.PermuteIsTwentyFourRounds := by
  unfold Obligations.PermuteIsTwentyFourRounds
  intro A hround
  rw [permute_eq_foldl, ← Fin.foldl_eq_foldl_finRange]
  exact foldl_eq_of_recurrence round A hround

end Sys2Proof.Machine

/-! PROOFS. The stores of the sponge controller: ABSORB_BYTE (spec/41_sponge.md R112), the empty UPDATE (R114) and PAD
(R117, R118). -/

namespace Sys2Proof.Machine

open Sys2Proof.Safety

/-! ## Two canonical memories, and two XOR stores -/

/-- Canonical memories that read alike below 200 are equal; above, both read as the unlisted byte. -/
theorem mem_eq_of_read_eq_below {m m' : List Host.Cell} (hm : Memory.wf m = true) (hm' : Memory.wf m' = true)
    (hread : ∀ a < 200, Memory.read m a = Memory.read m' a) : m = m' := by
  refine Memory.eq_of_read_eq hm hm' fun a => ?_
  by_cases ha : a < 200
  · exact hread a ha
  · rw [Memory.read_above hm (by omega), Memory.read_above hm' (by omega)]

/-- XORing bytes in at an address determines the State. -/
theorem mem_eq_of_xoredFrom {lo : Nat} {X : List Byte} {s : State} {m m' : List Host.Cell} (hm : Memory.wf m = true)
    (hm' : Memory.wf m' = true) (h : XoredFrom lo X s m) (h' : XoredFrom lo X s m') : m = m' :=
  mem_eq_of_read_eq_below hm hm' fun a ha => (h a ha).trans (h' a ha).symm

/-- "The order of the two does not matter" (R117): two XOR stores commute, also at one address. -/
theorem xorByte_comm {s : State} (hm : Memory.wf s.mem = true) {j k : Nat} (hj : j < 200) (hk : k < 200) (u v : Byte) :
    xorByte j u (xorByte k v s) = xorByte k v (xorByte j u s) := by
  have hmem : (xorByte j u (xorByte k v s)).mem = (xorByte k v (xorByte j u s)).mem := by
    refine mem_eq_of_read_eq_below (wf_xorByte (wf_xorByte hm hk v) hj u) (wf_xorByte (wf_xorByte hm hj u) hk v)
      fun a _ => ?_
    rw [read_xorByte (wf_xorByte hm hk v), read_xorByte hm, read_xorByte (wf_xorByte hm hj u), read_xorByte hm]
    ac_rfl
  exact congrArg (fun m => { s with mem := m }) hmem

/-! ## ABSORB_BYTE -/

theorem samePorts_absorbByte (s : State) (v : Byte) : SamePorts s (absorbByte s v) where
  cmdIn := absorbByte_cmdIn s v
  rx := absorbByte_rx s v
  seq := absorbByte_seq s v
  running := absorbByte_running s v
  resetIn := absorbByte_resetIn s v

theorem wf_storeByte {s : State} (hm : Memory.wf s.mem = true) (h : s.ratePos.toNat < 136) (v : Byte) :
    Memory.wf (storeByte s v).mem = true :=
  wf_xorByte hm (by omega) v

/-- The store of ABSORB_BYTE XORs its one byte in at the cursor (R112). -/
theorem xoredFrom_storeByte {s : State} (hm : Memory.wf s.mem = true) (v : Byte) :
    XoredFrom s.ratePos.toNat [v] s (storeByte s v).mem := by
  intro a _
  have hone : (if s.ratePos.toNat ≤ a then [v].getD (a - s.ratePos.toNat) 0x00#8 else 0x00#8)
      = if a = s.ratePos.toNat then v else 0x00#8 := by
    rcases Nat.lt_trichotomy a s.ratePos.toNat with hlt | heq | hgt
    · rw [if_neg (by omega), if_neg (by omega)]
    · simp [heq]
    · rw [if_pos (by omega), if_neg (by omega), List.getD_eq_default _ _ (by simp only [List.length_singleton]; omega)]
  rw [hone]
  exact read_xorByte hm _ v a

/-- Settles O32: before position 135 ABSORB_BYTE is the store; at 135 it permutes the State of the store, and that is
the only State with the byte XORed in. -/
theorem absorbByteStoresThenPermutesOnTheWrap : Obligations.AbsorbByteStoresThenPermutesOnTheWrap := by
  unfold Obligations.AbsorbByteStoresThenPermutesOnTheWrap
  intro s v hm hpos
  have hlt : s.ratePos.toNat < 136 := by omega
  have hxored := xoredFrom_storeByte hm v
  refine ⟨absorbByte_finalized s v, absorbByte_respOut s v, samePorts_absorbByte s v, fun hinside => ?_,
    fun hlast => ?_⟩
  · rw [absorbByte_eq hlt, if_neg (by omega)]
    exact ⟨hxored, toNat_storeByte_ratePos hlt v⟩
  · rw [absorbByte_eq hlt, if_pos hlast]
    refine ⟨fun m hwf hm135 => ?_, clearCursor_ratePos _⟩
    rw [hlast] at hxored
    rw [clearCursor_mem, permuteState_mem, mem_eq_of_xoredFrom hwf (wf_storeByte hm hlt v) hm135 hxored]

/-! ## UPDATE with no payload -/

/-- Settles O36: the fold of ABSORB_BYTE over no byte is the state itself. -/
theorem zeroLengthUpdateIsANoOperation : Obligations.ZeroLengthUpdateIsANoOperation := by
  unfold Obligations.ZeroLengthUpdateIsANoOperation
  intro s habsorbing
  exact exec_update_nil habsorbing

/-! ## PAD -/

theorem samePorts_pad (s : State) : SamePorts s (pad s) where
  cmdIn := pad_cmdIn s
  rx := pad_rx s
  seq := pad_seq s
  running := pad_running s
  resetIn := pad_resetIn s

theorem padded_pad {s : State} (hm : Memory.wf s.mem = true) (h : s.ratePos.toNat < 136) : Padded s (pad s).mem :=
  fun a _ => read_pad hm h a

/-- PAD with its two stores in the other order (R117). -/
theorem pad_eq_swapped {s : State} (hm : Memory.wf s.mem = true) (h : s.ratePos.toNat < 136) :
    pad s = xorByte s.ratePos.toNat 0x06#8 (xorByte 135 0x80#8 s) :=
  xorByte_comm hm (by decide) (by omega) 0x80#8 0x06#8

/-- Settles O39: the bytes are those of `read_pad`, and the two XOR stores of PAD commute. -/
theorem padXorsTheTwoPaddingBytes : Obligations.PadXorsTheTwoPaddingBytes := by
  unfold Obligations.PadXorsTheTwoPaddingBytes
  intro s hm hpos
  have hlt : s.ratePos.toNat < 136 := by omega
  exact ⟨padded_pad hm hlt, wf_pad hm hlt, pad_eq_swapped hm hlt, pad_ratePos s, pad_finalized s, pad_respOut s,
    samePorts_pad s⟩

/-- With the cursor at 135 both padding bytes fall on byte 135, as `0x06 ^ 0x80 = 0x86`, and no other byte changes
(R118). -/
theorem read_pad_at_last {s : State} (hm : Memory.wf s.mem = true) (hlast : s.ratePos.toNat = 135) (a : Nat) :
    Memory.read (pad s).mem a = Memory.read s.mem a ^^^ (if a = 135 then 0x86#8 else 0x00#8) := by
  rw [read_pad hm (by omega), hlast, BitVec.xor_assoc]
  by_cases ha : a = 135 <;> simp [ha]

/-- The cursor after a message is its length modulo the rate. -/
theorem absorbedFromReset_ratePos (m : List Byte) : (absorbedFromReset m).ratePos.toNat = m.length % 136 := by
  have hreset : State.reset.ratePos.toNat = 0 := rfl
  rw [absorbedFromReset, absorb_ratePos (by omega), hreset, Nat.zero_add]

/-- Settles O40: the two padding bytes meet in byte 135, and the cursor counts the absorbed bytes modulo 136. -/
theorem padAtTheLastByteXorsBoth : Obligations.PadAtTheLastByteXorsBoth := by
  unfold Obligations.PadAtTheLastByteXorsBoth
  refine ⟨fun s hm hlast => ⟨?_, fun a _ hother => ?_⟩, fun m => ?_⟩
  · rw [read_pad_at_last hm hlast, if_pos rfl]
  · rw [read_pad_at_last hm hlast, if_neg hother, BitVec.xor_zero]
  · rw [absorbedFromReset_ratePos]

end Sys2Proof.Machine

/-! PROOFS. The decoder and the encoder (spec/30_encoding.md R61 to R73). -/

namespace Sys2Proof

/-! ## Command frames -/

/-- The length bytes and the payload of an UPDATE decode to the payload (R65, R69). -/
theorem decodeUpdate_bytesOfLen {data : List Byte} (h : data.length < 2 ^ 32) (rest : List Byte) :
    decodeUpdate (bytesOfLen data.length ++ (data ++ rest)) = .complete (.update data) rest := by
  have hlen : ¬ (data ++ rest).length < data.length := by simp
  simp only [bytesOfLen, List.cons_append, List.nil_append, decodeUpdate, lenOfBytes_ofNat h, if_neg hlen,
    List.take_left, List.drop_left]

/-- A well-formed command decodes from its encoding, whatever follows (R69). -/
theorem decodeFrame_encode_append {i : Instr} (hcmd : i.isCommand = true) (hwf : i.wellFormed = true)
    (rest : List Byte) : decodeFrame (encode i ++ rest) = .complete i rest := by
  cases i with
  | reset => rfl
  | finalize => rfl
  | update data =>
    have hlen : data.length < 2 ^ 32 := of_decide_eq_true hwf
    have hframe : encode (.update data) ++ rest = 0x01#8 :: (bytesOfLen data.length ++ (data ++ rest)) := by
      simp [encode]
    rw [hframe, ← decodeUpdate_bytesOfLen hlen rest]
    rfl
  | theta rnd => cases hcmd
  | rho rnd => cases hcmd
  | pi rnd => cases hcmd
  | chi rnd => cases hcmd
  | iota rnd => cases hcmd

/-- What decodes as a command is the encoding of a well-formed command (R61, R69). -/
theorem eq_encode_of_decodeFrame {bs rest : List Byte} {i : Instr} (h : decodeFrame bs = .complete i rest) :
    i.isCommand = true ∧ i.wellFormed = true ∧ bs = encode i ++ rest := by
  obtain ⟨-, hd⟩ | ⟨tl, rfl, hd⟩ | ⟨tl, rfl, hd⟩ | ⟨tl, -, -, hd⟩ | ⟨b1, b2, b3, b4, tl, -, -, hd⟩
    | ⟨b1, b2, b3, b4, data, tl, rfl, hlen, hd⟩ | ⟨opc, tl, -, -, hd⟩ := decodeFrame_cases bs <;>
    rw [hd] at h <;> cases h
  · exact ⟨rfl, rfl, rfl⟩
  · exact ⟨rfl, rfl, rfl⟩
  · refine ⟨rfl, decide_eq_true (hlen ▸ lenOfBytes_lt b1 b2 b3 b4), ?_⟩
    simp [encode, hlen, bytesOfLen_lenOfBytes]

/-- A stream is refused exactly for a reserved byte at its head (R68). -/
theorem decodeFrame_eq_reserved_iff {bs : List Byte} {opc : Byte} :
    decodeFrame bs = .reserved opc ↔ 3 ≤ opc.toNat ∧ ∃ tl, bs = opc :: tl := by
  constructor
  · intro h
    obtain ⟨-, hd⟩ | ⟨tl, -, hd⟩ | ⟨tl, -, hd⟩ | ⟨tl, -, -, hd⟩ | ⟨b1, b2, b3, b4, tl, -, -, hd⟩
      | ⟨b1, b2, b3, b4, data, tl, -, -, hd⟩ | ⟨opc, tl, hbs, hopc, hd⟩ := decodeFrame_cases bs <;>
      rw [hd] at h <;> cases h
    exact ⟨hopc, tl, hbs⟩
  · rintro ⟨hopc, tl, rfl⟩
    have hne : ∀ b : Byte, b.toNat < 3 → opc ≠ b := fun b hb he => by rw [he] at hopc; omega
    simp [decodeFrame, hne]

/-- Settles O1: each word is decoded by computation. -/
theorem wordsOfTheTableDecode : Obligations.WordsOfTheTableDecode := by
  unfold Obligations.WordsOfTheTableDecode
  decide

/-- Settles O2: the length field reads back as the length of the payload, so the payload is cut off where it ends. -/
theorem commandFrameRoundTrip : Obligations.CommandFrameRoundTrip := by
  unfold Obligations.CommandFrameRoundTrip
  exact fun i rest hcmd hwf => decodeFrame_encode_append hcmd hwf rest

/-- Settles O3: each whole frame `decodeFrame` answers is rebuilt by `encode`. -/
theorem frameDecodesFromItsEncodingOnly : Obligations.FrameDecodesFromItsEncodingOnly := by
  unfold Obligations.FrameDecodesFromItsEncodingOnly
  exact fun bs rest i h => eq_encode_of_decodeFrame h

/-! ## Control words -/

/-- The micro-operation of step `j` of round `r` (R72). -/
def microOpAt (j : Fin 5) (r : Fin 24) : Instr :=
  match j with
  | 0 => .theta r
  | 1 => .rho r
  | 2 => .pi r
  | 3 => .chi r
  | 4 => .iota r

theorem encode_microOpAt (j : Fin 5) (r : Fin 24) : encode (microOpAt j r) = [seqWord j r] := by
  fin_cases j <;> rfl

theorem microOpAt_isCommand (j : Fin 5) (r : Fin 24) : (microOpAt j r).isCommand = false := by
  fin_cases j <;> rfl

/-- Every micro-operation is one step of one round (R72). -/
theorem exists_eq_microOpAt {i : Instr} (h : i.isCommand = false) : ∃ j r, i = microOpAt j r := by
  cases i with
  | reset => cases h
  | update data => cases h
  | finalize => cases h
  | theta r => exact ⟨0, r, rfl⟩
  | rho r => exact ⟨1, r, rfl⟩
  | pi r => exact ⟨2, r, rfl⟩
  | chi r => exact ⟨3, r, rfl⟩
  | iota r => exact ⟨4, r, rfl⟩

theorem decodeSeq_seqWord (j : Fin 5) (r : Fin 24) : decodeSeq (seqWord j r) = .microOp (microOpAt j r) := by
  have hstep : seqStep (seqWord j r) = j := seqStep_seqWord r.val (by omega)
  have hrnd : seqRnd (seqWord j r) = r := seqRnd_seqWord (by omega) (by omega)
  fin_cases j <;> simp_all [decodeSeq, microOpAt]

/-- A control word that decodes is the word of a step of a round (R72). -/
theorem decodeSeq_eq_microOp_iff {w : Byte} {i : Instr} :
    decodeSeq w = .microOp i ↔ ∃ (j : Fin 5) (r : Fin 24), i = microOpAt j r ∧ w = seqWord j r := by
  constructor
  · intro h
    obtain ⟨r, hr, hcases⟩ | ⟨-, hd⟩ := decodeSeq_cases w
    · have hword : ∀ j : Fin 5, seqStep w = j → w = seqWord j r := fun j hj => by
        rw [hr, ← hj, seqWord_fields]
      obtain ⟨hs, hd⟩ | ⟨hs, hd⟩ | ⟨hs, hd⟩ | ⟨hs, hd⟩ | ⟨hs, hd⟩ := hcases <;> rw [hd] at h <;> cases h
      · exact ⟨0, r, rfl, hword 0 hs⟩
      · exact ⟨1, r, rfl, hword 1 hs⟩
      · exact ⟨2, r, rfl, hword 2 hs⟩
      · exact ⟨3, r, rfl, hword 3 hs⟩
      · exact ⟨4, r, rfl, hword 4 hs⟩
    · rw [hd] at h
      cases h
  · rintro ⟨j, r, rfl, rfl⟩
    exact decodeSeq_seqWord j r

/-- Settles O4: on both sides stand the micro-operation and the control word of one step of one round. -/
theorem sequencerWordRoundTrip : Obligations.SequencerWordRoundTrip := by
  unfold Obligations.SequencerWordRoundTrip
  intro i w
  rw [decodeSeq_eq_microOp_iff]
  constructor
  · rintro ⟨hmicro, hword⟩
    obtain ⟨j, r, rfl⟩ := exists_eq_microOpAt hmicro
    rw [encode_microOpAt] at hword
    exact ⟨j, r, rfl, (List.singleton_injective hword).symm⟩
  · rintro ⟨j, r, rfl, rfl⟩
    exact ⟨microOpAt_isCommand j r, encode_microOpAt j r⟩

theorem nextSeqWord_seqWord (j : Fin 5) (r : Fin 24) :
    nextSeqWord (seqWord j r) =
      if j.val < 4 then some (seqWord (j + 1) r) else if r.val < 23 then some (seqWord 0 (r + 1)) else none := by
  have hstep : seqStep (seqWord j r) = j := seqStep_seqWord r.val (by omega)
  have hrnd : seqRnd (seqWord j r) = r := seqRnd_seqWord (by omega) (by omega)
  rw [nextSeqWord, hstep, hrnd]

/-- Settles O5: the two fields of the word are read back, and the next word is made of them. -/
theorem sequencerOrder : Obligations.SequencerOrder := by
  unfold Obligations.SequencerOrder
  exact fun r j => nextSeqWord_seqWord j r

end Sys2Proof

/-! PROOFS. What one instruction does: completion, the flag, the cursor and the responses (spec/41_sponge.md R110 to
R123, spec/60_exceptions.md R140 to R145). -/

namespace Sys2Proof.Machine

open Sys2Proof.Safety

/-! ## The ports -/

/-- No instruction writes the input side or the sequencing state (R70). -/
theorem samePorts_of_exec {i : Instr} {s t : State} (h : exec i s = .next t) : SamePorts s t := by
  obtain ⟨hcmdIn, hrx, hseq, hrunning, hresetIn⟩ := exec_ports h
  exact ⟨hcmdIn, hrx, hseq, hrunning, hresetIn⟩

/-! ## Completion -/

/-- With the cursor in its range every instruction has a next state (R143). -/
theorem exec_completes {s : State} (hpos : s.ratePos.toNat < 136) (i : Instr) : ∃ t, exec i s = .next t := by
  cases i with
  | reset => exact ⟨_, exec_reset s⟩
  | update data =>
    cases hflag : s.finalized with
    | true => exact ⟨_, exec_update_finalized hflag data⟩
    | false => exact ⟨_, exec_update_absorbing hflag hpos data⟩
  | finalize =>
    cases hflag : s.finalized with
    | true => exact ⟨_, exec_finalize_finalized hflag⟩
    | false => exact ⟨_, exec_finalize_absorbing hflag hpos⟩
  | _ => exact ⟨_, exec_microOp rfl s⟩

/-- Settles O49: the invariant keeps the cursor in the range in which every meaning is defined. -/
theorem everyInstructionCompletes : Obligations.EveryInstructionCompletes := by
  unfold Obligations.EveryInstructionCompletes
  exact fun i s hinv => exec_completes (Nat.lt_succ_of_le hinv.cursor) i

/-- Settles O50: the cursor fails the range check of both commands. -/
theorem cursorOutOfRangeStops : Obligations.CursorOutOfRangeStops := by
  unfold Obligations.CursorOutOfRangeStops
  intro s v data hflag hpos
  have hrange : cursorInRange s = false := decide_eq_false (Nat.not_lt.mpr hpos)
  constructor
  · simp [exec, execUpdate, hflag, hrange]
  · simp [exec, execFinalize, hflag, hrange]

/-! ## RESET, and the Finalized state -/

/-- Settles O29: RESET writes the zero State, and the empty list reads as zero everywhere. -/
theorem resetZeroesTheEngine : Obligations.ResetZeroesTheEngine := by
  unfold Obligations.ResetZeroesTheEngine
  exact fun s => ⟨_, exec_reset s, fun _ _ => rfl, rfl, rfl, rfl, samePorts_of_exec (exec_reset s)⟩

/-- Settles O37: the exception appends its response to the stream and writes nothing else. -/
theorem updateAfterFinalizeIsRejected : Obligations.UpdateAfterFinalizeIsRejected := by
  unfold Obligations.UpdateAfterFinalizeIsRejected
  exact fun s data hflag => exec_update_finalized hflag data

/-- Settles O42: FINALIZE in the Finalized state is its response alone. -/
theorem finalizeAgainReturnsTheDigest : Obligations.FinalizeAgainReturnsTheDigest := by
  unfold Obligations.FinalizeAgainReturnsTheDigest
  exact fun s hflag => exec_finalize_finalized hflag

/-- The response frame of an UPDATE or FINALIZE in the Finalized state (R115, R120). -/
def finalizedFrame (s : State) (i : Instr) : List Byte :=
  if i = .finalize then 0x00#8 :: (List.range 32).map (Memory.read s.mem) else [0x01#8]

/-- In the Finalized state every command but RESET appends its response and writes nothing else (R125). -/
theorem exec_when_finalized {s : State} (hflag : s.finalized = true) {i : Instr} (hcmd : i.isCommand = true)
    (hreset : i ≠ .reset) : exec i s = .next { s with respOut := s.respOut ++ finalizedFrame s i } := by
  cases i with
  | reset => exact absurd rfl hreset
  | update data => exact exec_update_finalized hflag data
  | finalize => exact exec_finalize_finalized hflag
  | _ => cases hcmd

/-- Settles O44: each command only appends its response, and the next one finds the same State and flag. -/
theorem finalizedStateIsConstant : Obligations.FinalizedStateIsConstant := by
  unfold Obligations.FinalizedStateIsConstant
  intro s cs hflag hcs
  change runAll cs s = .next { s with respOut := s.respOut ++ cs.flatMap (finalizedFrame s) }
  induction cs generalizing s with
  | nil => simp [runAll]
  | cons i is ih =>
    obtain ⟨hi, his⟩ := List.forall_mem_cons.mp hcs
    rw [runAll_next (exec_when_finalized hflag hi.1 hi.2), List.flatMap_cons, ← List.append_assoc]
    exact ih { s with respOut := s.respOut ++ finalizedFrame s i } hflag his

/-! ## Who writes the flag and the cursor, and who is answered what -/

/-- Settles O46: one case per meaning. -/
theorem onlyResetAndFinalizeWriteTheFlag : Obligations.OnlyResetAndFinalizeWriteTheFlag := by
  unfold Obligations.OnlyResetAndFinalizeWriteTheFlag
  intro i s t h
  obtain ⟨rfl, rfl⟩ | ⟨data, rfl, -, rfl⟩ | ⟨data, rfl, -, -, rfl⟩ | ⟨rfl, hflag, rfl⟩ | ⟨rfl, -, -, rfl⟩
    | ⟨hmicro, rfl⟩ := exec_next_cases h
  · simp
  · simp
  · simp
  · simp [hflag]
  · simp
  · obtain ⟨j, r, rfl⟩ := exists_eq_microOpAt hmicro
    fin_cases j <;> simp [microOpAt]

/-- Settles O47: one case per meaning; an UPDATE with no payload absorbs nothing. -/
theorem onlyResetAndUpdateWriteTheCursor : Obligations.OnlyResetAndUpdateWriteTheCursor := by
  unfold Obligations.OnlyResetAndUpdateWriteTheCursor
  intro i s t h hchanged
  obtain ⟨rfl, -⟩ | ⟨data, -, -, rfl⟩ | ⟨data, rfl, hflag, -, rfl⟩ | ⟨-, -, rfl⟩ | ⟨-, -, -, rfl⟩
    | ⟨-, rfl⟩ := exec_next_cases h
  · exact .inl rfl
  · exact absurd rfl hchanged
  · refine .inr ⟨hflag, data, ?_, rfl⟩
    rintro rfl
    exact hchanged rfl
  · exact absurd rfl hchanged
  · exact absurd rfl hchanged
  · exact absurd rfl hchanged

/-- Settles O48: one case per meaning; the frames of the others differ from `INVALID_STATE` in their first byte, or are
empty. -/
theorem invalidStateIffUpdateWhenFinalized : Obligations.InvalidStateIffUpdateWhenFinalized := by
  unfold Obligations.InvalidStateIffUpdateWhenFinalized
  intro i s t h
  obtain ⟨rfl, rfl⟩ | ⟨data, rfl, hflag, rfl⟩ | ⟨data, rfl, hflag, -, rfl⟩ | ⟨rfl, -, rfl⟩ | ⟨rfl, -, -, rfl⟩
    | ⟨hmicro, rfl⟩ := exec_next_cases h
  · simp [Response.frame, Status.code]
  · simp [Response.frame, Status.code, hflag]
  · simp [Response.frame, Status.code, hflag]
  · simp [Response.frame, Status.code]
  · simp [Response.frame, Status.code]
  · have hnotUpdate : ∀ data, i ≠ .update data := fun data he => by rw [he] at hmicro; cases hmicro
    simp [Response.frame, hnotUpdate]

theorem phase_eq_absorbing {s : State} (h : s.finalized = false) : phase s = .absorbing := by simp [phase, h]

theorem phase_eq_finalized {s : State} (h : s.finalized = true) : phase s = .finalized := by simp [phase, h]

/-- Settles O45: each command in each phase by the lemma of its meaning. -/
theorem spongeTransitionTable : Obligations.SpongeTransitionTable := by
  unfold Obligations.SpongeTransitionTable
  refine fun s t => ⟨fun h => ?_, fun data h => ?_, fun h => ?_⟩
  · rw [exec_reset, Host.Outcome.next.injEq] at h
    subst h
    exact ⟨phase_eq_absorbing rfl, rfl⟩
  · obtain ⟨he, -⟩ | ⟨_, -, hflag, rfl⟩ | ⟨_, -, hflag, -, rfl⟩ | ⟨he, -⟩ | ⟨he, -⟩ | ⟨he, -⟩ := exec_next_cases h
    · cases he
    · exact ⟨rfl, by simp [phase_eq_finalized hflag, Response.frame, Status.code]⟩
    · refine ⟨?_, by simp [phase_eq_absorbing hflag]⟩
      rw [phase_eq_absorbing hflag, phase_eq_absorbing (by simpa using hflag)]
    · cases he
    · cases he
    · cases he
  · obtain ⟨he, -⟩ | ⟨_, he, -⟩ | ⟨_, he, -⟩ | ⟨-, hflag, rfl⟩ | ⟨-, hflag, -, rfl⟩ | ⟨he, -⟩ := exec_next_cases h
    · cases he
    · cases he
    · cases he
    · exact ⟨phase_eq_finalized hflag, rfl, fun _ => rfl⟩
    · refine ⟨phase_eq_finalized rfl, rfl, fun hphase => ?_⟩
      rw [phase_eq_absorbing hflag] at hphase
      cases hphase
    · cases he

end Sys2Proof.Machine

/-! PROOFS. The invariant between steps (spec/10_state.md R37): what every instruction, every micro-step of a command
and every step keep. -/

namespace Sys2Proof.Machine

open Sys2Proof.Safety

/-! ## The reset state -/

/-- Settles O28: the reset state by its definition. -/
theorem resetValues : Obligations.ResetValues := by
  unfold Obligations.ResetValues
  exact ⟨fun _ => rfl, rfl, rfl, Tests.witness_resetIdle, rfl, rfl⟩

/-- Settles O51: the reset state has no history, and the session just started none either. -/
theorem resetMeetsTheInvariant : Obligations.ResetMeetsTheInvariant := by
  unfold Obligations.ResetMeetsTheInvariant
  exact ⟨Tests.witness_resetInvariant, ⟨rfl, rfl, rfl⟩⟩

/-- The state after hardware reset meets the invariant (R160). -/
theorem stateInv_hardwareReset (s : State) : StateInv (hardwareReset s) where
  memWf := rfl
  cursor := Nat.zero_le 135
  rxPartial := rfl
  seqGenerated := fun _ h => by cases h
  runningAbsorbing := fun h => absurd rfl h

/-- Settles O30: the reset input wins over everything, in both machines. -/
theorem hardwareResetAbandonsEverything : Obligations.HardwareResetAbandonsEverything := by
  unfold Obligations.HardwareResetAbandonsEverything
  exact fun s => ⟨hardwareReset s, rfl, rfl, rfl, rfl, rfl, rfl, ⟨rfl, rfl, rfl⟩, rfl, rfl⟩

/-! ## Instructions -/

/-- What an instruction leaves of the State is canonical, and its cursor is in range (R25, R37(a)). -/
theorem exec_keeps_memory_and_cursor {i : Instr} {s t : State} (hm : Memory.wf s.mem = true)
    (hpos : s.ratePos.toNat ≤ 135) (h : exec i s = .next t) : Memory.wf t.mem = true ∧ t.ratePos.toNat ≤ 135 := by
  have hlt : s.ratePos.toNat < 136 := by omega
  obtain ⟨-, rfl⟩ | ⟨data, -, -, rfl⟩ | ⟨data, -, -, -, rfl⟩ | ⟨-, -, rfl⟩ | ⟨-, -, -, rfl⟩ | ⟨-, rfl⟩ :=
    exec_next_cases h
  · exact ⟨rfl, Nat.zero_le 135⟩
  · exact ⟨hm, hpos⟩
  · refine ⟨wf_absorb hm hlt data, ?_⟩
    rw [respond_ratePos, absorb_ratePos hlt]
    omega
  · exact ⟨hm, hpos⟩
  · exact ⟨wf_l2b _, hpos⟩
  · exact ⟨wf_l2b _, hpos⟩

/-- A micro-operation does not write the flag (R90). -/
theorem finalized_of_exec_microOp {i : Instr} {s t : State} (hmicro : i.isCommand = false) (h : exec i s = .next t) :
    t.finalized = s.finalized := by
  rw [exec_microOp hmicro, Host.Outcome.next.injEq] at h
  rw [← h, mapLanes_finalized]

/-- An instruction keeps the invariant; a command, when no command is in progress. -/
theorem stateInv_exec {i : Instr} {s t : State} (hinv : StateInv s)
    (hidle : i.isCommand = true → s.running = none) (h : exec i s = .next t) : StateInv t := by
  have hports := samePorts_of_exec h
  obtain ⟨hm, hpos⟩ := exec_keeps_memory_and_cursor hinv.memWf hinv.cursor h
  refine ⟨hm, hpos, hports.rx ▸ hinv.rxPartial, hports.seq ▸ hinv.seqGenerated, fun hbusy => ?_⟩
  rw [hports.running] at hbusy
  cases hcmd : i.isCommand with
  | true => exact absurd (hidle hcmd) hbusy
  | false => rw [finalized_of_exec_microOp hcmd h, hinv.runningAbsorbing hbusy]

/-! ## Control words -/

theorem decodeSeq_startSeq : decodeSeq (seqWord 0 0) = .microOp (.theta 0) := decodeSeq_seqWord 0 0

/-- The control word after one that the sequencer generates is one it generates (R72). -/
theorem nextSeqWord_generated {v w : Byte} {i : Instr} (hw : decodeSeq w = .microOp i) (hv : nextSeqWord w = some v) :
    ∃ i', decodeSeq v = .microOp i' := by
  obtain ⟨j, r, -, rfl⟩ := decodeSeq_eq_microOp_iff.mp hw
  rw [nextSeqWord_seqWord] at hv
  split at hv
  · cases hv
    exact ⟨_, decodeSeq_seqWord ⟨j + 1, by omega⟩ r⟩
  · split at hv
    · cases hv
      exact ⟨_, decodeSeq_seqWord 0 ⟨r + 1, by omega⟩⟩
    · cases hv

/-- Putting another generated control word, or none, in the sequencer keeps the invariant. -/
theorem stateInv_setSeq {s : State} (hinv : StateInv s) {w : Option Byte}
    (hw : ∀ v, w = some v → ∃ i, decodeSeq v = .microOp i) : StateInv { s with seq := w } :=
  ⟨hinv.memWf, hinv.cursor, hinv.rxPartial, hw, hinv.runningAbsorbing⟩

/-- Starting the sequencer keeps the invariant. -/
theorem stateInv_startSeq {s : State} (hinv : StateInv s) : StateInv (startSeq s) :=
  stateInv_setSeq hinv fun _ hv => by cases hv; exact ⟨_, decodeSeq_startSeq⟩

/-- Taking bytes off the command stream keeps the invariant, when what is held of a frame is still partial. -/
theorem stateInv_setStream {s : State} (hinv : StateInv s) {rx : List Byte} (hrx : decodeFrame rx = .incomplete)
    (cmdIn : List Byte) : StateInv { s with rx := rx, cmdIn := cmdIn } :=
  ⟨hinv.memWf, hinv.cursor, hrx, hinv.seqGenerated, hinv.runningAbsorbing⟩

/-! ## The micro-steps of a command -/

/-- A command in progress after one byte of its payload: the store of ABSORB_BYTE, and the permutation started when the
block is full (R112). -/
def afterByte (s : State) (v : Byte) (rest : List Byte) : State :=
  if s.ratePos.toNat = 135 then startSeq (clearCursor { storeByte s v with running := some (.update rest) })
  else { storeByte s v with running := some (.update rest) }

theorem resume_update_nil (s : State) :
    resume (.update []) s = .next (respond (.status .ok) { s with running := none }) := rfl

theorem resume_update_cons {s : State} (hpos : s.ratePos.toNat < 136) (v : Byte) (rest : List Byte) :
    resume (.update (v :: rest)) s = .next (afterByte s v rest) := by
  have hfull : blockFull { storeByte s v with running := some (.update rest) } = decide (s.ratePos.toNat = 135) :=
    blockFull_storeByte hpos v
  simp only [resume, (cursorInRange_iff s).mpr hpos, if_true, hfull, decide_eq_true_eq, afterByte]

theorem resume_finalize (s : State) :
    resume .finalize s = .next (respond (.digest (digest s)) (setFinalized { s with running := none })) := rfl

/-- With the cursor in its range a command in progress goes on. -/
theorem resume_completes {s : State} (hpos : s.ratePos.toNat < 136) (c : Running) : ∃ t, resume c s = .next t := by
  match c with
  | .update [] => exact ⟨_, resume_update_nil s⟩
  | .update (v :: rest) => exact ⟨_, resume_update_cons hpos v rest⟩
  | .finalize => exact ⟨_, resume_finalize s⟩

/-- Ending or carrying on a command in progress takes nothing from the command stream. -/
theorem resume_stream {c : Running} {s t : State} (h : resume c s = .next t) : t.cmdIn = s.cmdIn ∧ t.rx = s.rx := by
  match c with
  | .update [] => cases h; exact ⟨rfl, rfl⟩
  | .finalize => cases h; exact ⟨rfl, rfl⟩
  | .update (v :: rest) =>
    by_cases hpos : s.ratePos.toNat < 136
    · rw [resume_update_cons hpos, Host.Outcome.next.injEq] at h
      subst h
      unfold afterByte
      split <;> exact ⟨rfl, rfl⟩
    · have hrange : cursorInRange s = false := decide_eq_false hpos
      simp [resume, hrange] at h

/-- Storing a byte in the Absorbing state keeps the invariant, with the permutation started when the block is full. -/
theorem stateInv_afterByte {s : State} (hinv : StateInv s) (hflag : s.finalized = false) (v : Byte)
    (rest : List Byte) : StateInv (afterByte s v rest) := by
  have hlt : s.ratePos.toNat < 136 := Nat.lt_succ_of_le hinv.cursor
  have hm : Memory.wf (storeByte s v).mem = true := wf_storeByte hinv.memWf hlt v
  unfold afterByte
  split
  · exact stateInv_startSeq ⟨hm, Nat.zero_le 135, hinv.rxPartial, hinv.seqGenerated, fun _ => hflag⟩
  · refine ⟨hm, ?_, hinv.rxPartial, hinv.seqGenerated, fun _ => hflag⟩
    have hnext := toNat_storeByte_ratePos hlt v
    change (storeByte s v).ratePos.toNat ≤ 135
    have := hinv.cursor
    omega

/-- A micro-step of a command in progress keeps the invariant. -/
theorem stateInv_resume {c : Running} {s t : State} (hinv : StateInv s) (hrunning : s.running = some c)
    (h : resume c s = .next t) : StateInv t := by
  have hflag : s.finalized = false := hinv.runningAbsorbing (by simp [hrunning])
  match c with
  | .update [] =>
    cases h
    exact ⟨hinv.memWf, hinv.cursor, hinv.rxPartial, hinv.seqGenerated, fun hbusy => absurd rfl hbusy⟩
  | .finalize =>
    cases h
    exact ⟨hinv.memWf, hinv.cursor, hinv.rxPartial, hinv.seqGenerated, fun hbusy => absurd rfl hbusy⟩
  | .update (v :: rest) =>
    rw [resume_update_cons (Nat.lt_succ_of_le hinv.cursor), Host.Outcome.next.injEq] at h
    exact h ▸ stateInv_afterByte hinv hflag v rest

theorem begin_update_absorbing {s : State} (hflag : s.finalized = false) (data : List Byte) :
    begin (.update data) s = .next { s with running := some (.update data) } := by
  simp [begin, hflag]

theorem begin_finalize_absorbing {s : State} (hflag : s.finalized = false) (hpos : s.ratePos.toNat < 136) :
    begin .finalize s = .next (startSeq { pad s with running := some .finalize }) := by
  simp [begin, hflag, (cursorInRange_iff s).mpr hpos]

/-- An instruction that neither absorbs nor permutes, so that one micro-step is all of it. -/
def OneMicroStep (i : Instr) (s : State) : Prop := s.finalized = true ∨ i.isCommand = false ∨ i = .reset

/-- The other instructions are UPDATE and FINALIZE in the Absorbing state. -/
theorem oneMicroStep_or_absorbing (i : Instr) (s : State) :
    OneMicroStep i s ∨ (s.finalized = false ∧ (i = .finalize ∨ ∃ data, i = .update data)) := by
  cases hflag : s.finalized with
  | true => exact .inl (.inl hflag)
  | false =>
    cases i with
    | reset => exact .inl (.inr (.inr rfl))
    | update data => exact .inr ⟨rfl, .inr ⟨data, rfl⟩⟩
    | finalize => exact .inr ⟨rfl, .inl rfl⟩
    | _ => exact .inl (.inr (.inl rfl))

/-- An UPDATE or a FINALIZE of one micro-step stands in the Finalized state. -/
theorem finalized_of_oneMicroStep {i : Instr} {s : State} (h : OneMicroStep i s) (hcmd : i.isCommand = true)
    (hreset : i ≠ .reset) : s.finalized = true := by
  simpa [OneMicroStep, hcmd, hreset] using h

theorem begin_eq_exec {i : Instr} {s : State} (h : OneMicroStep i s) : begin i s = exec i s := by
  cases i with
  | update data =>
    have hflag := finalized_of_oneMicroStep h rfl (by simp)
    simp [begin, exec_update_finalized hflag, hflag]
  | finalize =>
    have hflag := finalized_of_oneMicroStep h rfl (by simp)
    simp [begin, exec_finalize_finalized hflag, hflag]
  | _ => rfl

/-- The first micro-step of an instruction keeps the invariant. -/
theorem stateInv_begin {i : Instr} {s t : State} (hinv : StateInv s) (hidle : s.running = none)
    (h : begin i s = .next t) : StateInv t := by
  have hlt : s.ratePos.toNat < 136 := Nat.lt_succ_of_le hinv.cursor
  obtain hwhole | ⟨hflag, rfl | ⟨data, rfl⟩⟩ := oneMicroStep_or_absorbing i s
  · rw [begin_eq_exec hwhole] at h
    exact stateInv_exec hinv (fun _ => hidle) h
  · rw [begin_finalize_absorbing hflag hlt, Host.Outcome.next.injEq] at h
    exact h ▸ stateInv_startSeq
      ⟨wf_pad hinv.memWf hlt, hinv.cursor, hinv.rxPartial, hinv.seqGenerated, fun _ => hflag⟩
  · rw [begin_update_absorbing hflag, Host.Outcome.next.injEq] at h
    exact h ▸ ⟨hinv.memWf, hinv.cursor, hinv.rxPartial, hinv.seqGenerated, fun _ => hflag⟩

/-! ## Steps -/

/-- A step keeps the invariant whenever what happens to a whole frame does. -/
theorem stateInv_stepWith {start : Instr → State → Host.Outcome State Fault Refusal}
    (hstart : ∀ i s t, StateInv s → s.running = none → start i s = .next t → StateInv t) {s t : State}
    (hinv : StateInv s) (h : stepWith start s = .next t) : StateInv t := by
  obtain ⟨-, rfl⟩ | ⟨-, w, i, u, -, hw, hexec, rfl⟩ | ⟨-, -, c, hrunning, hresume⟩
    | ⟨-, -, hrunning, i, rest, -, hi⟩ | ⟨-, -, -, hpartial, rfl⟩ := stepWith_next_cases h
  · exact stateInv_hardwareReset s
  · have hmicro : i.isCommand = false := by
      obtain ⟨j, r, rfl, -⟩ := decodeSeq_eq_microOp_iff.mp hw
      exact microOpAt_isCommand j r
    have hu : StateInv u := stateInv_exec hinv (fun hcmd => by simp [hmicro] at hcmd) hexec
    exact stateInv_setSeq hu fun v hv => nextSeqWord_generated hw hv
  · exact stateInv_resume hinv hrunning hresume
  · exact hstart i _ t (stateInv_setStream hinv rfl rest) hrunning hi
  · exact stateInv_setStream hinv hpartial []

/-- Settles O52: a step is a reset, a control word, a micro-step of a command, a whole instruction or a wait, and each
keeps the invariant. -/
theorem stepKeepsTheInvariant : Obligations.StepKeepsTheInvariant := by
  unfold Obligations.StepKeepsTheInvariant
  exact fun s t => stateInv_stepWith fun i s t hinv hidle h => stateInv_exec hinv (fun _ => hidle) h

/-- Settles O53: as for a step, with the first micro-step of an instruction in place of the whole. -/
theorem microStepKeepsTheInvariant : Obligations.MicroStepKeepsTheInvariant := by
  unfold Obligations.MicroStepKeepsTheInvariant
  exact fun s t => stateInv_stepWith fun i s t => stateInv_begin

end Sys2Proof.Machine

/-! PROOFS. How the engine takes an instruction: frames from the command stream and control words from the sequencer
(spec/30_encoding.md R68 to R72, spec/70_reset_and_hazards.md R161, R167). -/

namespace Sys2Proof.Machine

open Sys2Proof.Safety

/-! ## The bytes at the head of the command stream -/

/-- A whole frame stays whole when more bytes follow. -/
theorem decodeFrame_append_of_complete {bs rest : List Byte} {i : Instr} (h : decodeFrame bs = .complete i rest)
    (more : List Byte) : decodeFrame (bs ++ more) = .complete i (rest ++ more) := by
  obtain ⟨hcmd, hwf, rfl⟩ := eq_encode_of_decodeFrame h
  rw [List.append_assoc, decodeFrame_encode_append hcmd hwf]

/-- A reserved byte stays at the head when more bytes follow. -/
theorem decodeFrame_append_of_reserved {bs : List Byte} {opc : Byte} (h : decodeFrame bs = .reserved opc)
    (more : List Byte) : decodeFrame (bs ++ more) = .reserved opc := by
  obtain ⟨hopc, tl, rfl⟩ := decodeFrame_eq_reserved_iff.mp h
  exact decodeFrame_eq_reserved_iff.mpr ⟨hopc, tl ++ more, rfl⟩

/-- A command's encoding cut short is not a frame yet (93 I17). -/
theorem decodeFrame_cut_short {i : Instr} (hcmd : i.isCommand = true) (hwf : i.wellFormed = true)
    {pre post : List Byte} (henc : encode i = pre ++ post) (hpost : post ≠ []) : decodeFrame pre = .incomplete := by
  have hwhole : decodeFrame (pre ++ post) = .complete i [] := by
    rw [← henc, ← decodeFrame_encode_append hcmd hwf [], List.append_nil]
  rcases hpre : decodeFrame pre with ⟨i', rest⟩ | _ | opc
  · have hrest := decodeFrame_append_of_complete hpre post
    rw [hwhole, FrameResult.complete.injEq] at hrest
    exact absurd (List.append_eq_nil_iff.mp hrest.2.symm).2 hpost
  · rfl
  · rw [decodeFrame_append_of_reserved hpre post] at hwhole
    cases hwhole

/-! ## A step of an idle engine -/

section Idle

variable {start : Instr → State → Host.Outcome State Fault Refusal} {s : State}

theorem stepWith_complete (hidle : Idle s) {i : Instr} {rest : List Byte}
    (hd : decodeFrame (s.rx ++ s.cmdIn) = .complete i rest) :
    stepWith start s = start i { s with rx := [], cmdIn := rest } := by
  rw [stepWith_idle start hidle.noReset hidle.noSeq hidle.noRunning, stepCommand, hd]

theorem stepWith_incomplete (hidle : Idle s) (hd : decodeFrame (s.rx ++ s.cmdIn) = .incomplete) :
    stepWith start s = .next { s with rx := s.rx ++ s.cmdIn, cmdIn := [] } := by
  rw [stepWith_idle start hidle.noReset hidle.noSeq hidle.noRunning, stepCommand, hd]

theorem stepWith_reserved (hidle : Idle s) {opc : Byte} (hd : decodeFrame (s.rx ++ s.cmdIn) = .reserved opc) :
    stepWith start s = .refused (.reservedOpcode opc) := by
  rw [stepWith_idle start hidle.noReset hidle.noSeq hidle.noRunning, stepCommand, hd]

/-- A waiting encoding is handed over and taken off the stream (R69, R70). -/
theorem stepWith_encode (hidle : Idle s) {i : Instr} {rest : List Byte} (hcmd : i.isCommand = true)
    (hwf : i.wellFormed = true) (hstream : s.rx ++ s.cmdIn = encode i ++ rest) :
    stepWith start s = start i { s with rx := [], cmdIn := rest } :=
  stepWith_complete hidle (hstream ▸ decodeFrame_encode_append hcmd hwf rest)

end Idle

/-- Settles O6: the waiting frame decodes to the command. -/
theorem stepRunsTheWaitingCommand : Obligations.StepRunsTheWaitingCommand := by
  unfold Obligations.StepRunsTheWaitingCommand
  exact fun s i rest hidle hcmd hwf hstream => stepWith_encode hidle hcmd hwf hstream

/-- Settles O8: an encoding cut short decodes to nothing yet, and with the rest behind it to the command. -/
theorem partialFrameWaitsForTheRest : Obligations.PartialFrameWaitsForTheRest := by
  unfold Obligations.PartialFrameWaitsForTheRest
  intro s i pre post rest hidle hcmd hwf henc hpost hstream
  have hpartial := decodeFrame_cut_short hcmd hwf henc hpost
  constructor
  · rw [step, stepWith_incomplete hidle (hstream ▸ hpartial), hstream]
  · have hwhole : pre ++ ([] ++ (post ++ rest)) = encode i ++ rest := by simp [henc]
    exact stepWith_encode (s := hostSend (post ++ rest) { s with rx := pre, cmdIn := [] })
      ⟨hidle.noReset, hidle.noSeq, hidle.noRunning⟩ hcmd hwf hwhole

/-- Settles O10: the byte at the head decodes to a refusal. -/
theorem reservedOpcodeIsRefused : Obligations.ReservedOpcodeIsRefused := by
  unfold Obligations.ReservedOpcodeIsRefused
  intro s opc rest hidle hrx hcmdIn hopc
  exact stepWith_reserved hidle (decodeFrame_eq_reserved_iff.mpr ⟨hopc, rest, by rw [hrx, hcmdIn]; rfl⟩)

/-! ## A step of the sequencer -/

theorem stepSeq_microOp {w : Byte} {i : Instr} {s t : State} (hw : decodeSeq w = .microOp i)
    (h : exec i s = .next t) : stepSeq w s = .next { t with seq := nextSeqWord w } := by
  rw [stepSeq, hw]
  simp only [h, onNext_next]

/-- Settles O7: the control word decodes to the micro-operation it encodes. -/
theorem stepRunsTheSequencerWord : Obligations.StepRunsTheSequencerWord := by
  unfold Obligations.StepRunsTheSequencerWord
  intro s t i w hreset hseq hmicro henc h
  rw [step, stepWith_seq exec hreset hseq, stepSeq_microOp ((sequencerWordRoundTrip i w).mp ⟨hmicro, henc⟩) h]

/-- Settles O11: such a control word decodes to no micro-operation. -/
theorem neverGeneratedControlWordIsRefused : Obligations.NeverGeneratedControlWordIsRefused := by
  unfold Obligations.NeverGeneratedControlWordIsRefused
  intro s w hreset hseq hfields
  obtain ⟨r, hr, hcases⟩ | ⟨-, hd⟩ := decodeSeq_cases w
  · have hrnd : seqRnd w < 24 := hr ▸ r.isLt
    have hstep : seqStep w < 5 := by omega
    change 5 ≤ seqStep w ∨ 24 ≤ seqRnd w at hfields
    omega
  · rw [step, stepWith_seq exec hreset hseq, stepSeq, hd]

/-! ## Busy and idle engines -/

/-- A step of a busy engine takes nothing from the command stream, whatever happens to a whole frame. -/
theorem stepWith_busy_stream {start : Instr → State → Host.Outcome State Fault Refusal} {s t : State}
    (hreset : s.resetIn = false) (hbusy : s.seq ≠ none ∨ s.running ≠ none) (h : stepWith start s = .next t) :
    t.cmdIn = s.cmdIn ∧ t.rx = s.rx := by
  obtain ⟨hr, -⟩ | ⟨-, w, i, u, -, -, hexec, rfl⟩ | ⟨-, -, c, -, hresume⟩ | ⟨-, hseq, hrunning, -⟩
    | ⟨-, hseq, hrunning, -⟩ := stepWith_next_cases h
  · simp [hreset] at hr
  · have hports := samePorts_of_exec hexec
    exact ⟨hports.cmdIn, hports.rx⟩
  · exact resume_stream hresume
  · simp [hseq, hrunning] at hbusy
  · simp [hseq, hrunning] at hbusy

/-- Settles O9: only an idle engine looks at the command stream, in both machines. -/
theorem busyEngineTakesNoByte : Obligations.BusyEngineTakesNoByte := by
  unfold Obligations.BusyEngineTakesNoByte
  rintro s t hreset hbusy (h | h)
  · exact stepWith_busy_stream hreset hbusy h
  · exact stepWith_busy_stream hreset hbusy h

/-- A step goes on unless the engine is idle at a reserved byte (R68, R143). -/
theorem step_completes_or_reserved {s : State} (hinv : StateInv s) :
    (∃ t, step s = .next t) ∨ ∃ opc, Idle s ∧ decodeFrame (s.rx ++ s.cmdIn) = .reserved opc := by
  have hlt : s.ratePos.toNat < 136 := Nat.lt_succ_of_le hinv.cursor
  cases hreset : s.resetIn with
  | true => exact .inl ⟨hardwareReset s, by simp [step, stepWith, hreset]⟩
  | false =>
    cases hseq : s.seq with
    | some w =>
      obtain ⟨i, hw⟩ := hinv.seqGenerated w hseq
      obtain ⟨t, ht⟩ := exec_completes hlt i
      exact .inl ⟨_, (stepWith_seq exec hreset hseq).trans (stepSeq_microOp hw ht)⟩
    | none =>
      cases hrunning : s.running with
      | some c =>
        obtain ⟨t, ht⟩ := resume_completes hlt c
        exact .inl ⟨t, (stepWith_running exec hreset hseq hrunning).trans ht⟩
      | none =>
        have hidle : Idle s := ⟨hreset, hseq, hrunning⟩
        rcases hd : decodeFrame (s.rx ++ s.cmdIn) with ⟨i, rest⟩ | _ | opc
        · obtain ⟨t, ht⟩ := exec_completes (s := { s with rx := [], cmdIn := rest }) hlt i
          exact .inl ⟨t, (stepWith_complete hidle hd).trans ht⟩
        · exact .inl ⟨_, stepWith_incomplete hidle hd⟩
        · exact .inr ⟨opc, hidle, rfl⟩

/-- Settles O54: what is held of a frame does not begin with a reserved byte, so a refused byte is the head of the
command stream. -/
theorem onlyAReservedOpcodeStopsAStep : Obligations.OnlyAReservedOpcodeStopsAStep := by
  unfold Obligations.OnlyAReservedOpcodeStopsAStep
  intro s hinv
  refine (step_completes_or_reserved hinv).imp_right ?_
  rintro ⟨opc, hidle, hd⟩
  obtain ⟨hopc, tl, hstream⟩ := decodeFrame_eq_reserved_iff.mp hd
  cases hrx : s.rx with
  | nil => exact ⟨opc, tl, hidle, rfl, by rw [← hstream, hrx]; rfl, hopc, stepWith_reserved hidle hd⟩
  | cons b bs =>
    rw [hrx, List.cons_append, List.cons.injEq] at hstream
    have hreserved : decodeFrame s.rx = .reserved opc :=
      decodeFrame_eq_reserved_iff.mpr ⟨hopc, bs, by rw [hrx, hstream.1]⟩
    rw [hinv.rxPartial] at hreserved
    cases hreserved

/-! ## A stream of commands -/

/-- The bytes waiting on the command stream have no part in a byte absorbed. -/
theorem absorbByte_setCmdIn (s : State) (c : List Byte) (v : Byte) :
    absorbByte { s with cmdIn := c } v = { absorbByte s v with cmdIn := c } := by
  have hfull : blockFull (storeByte { s with cmdIn := c } v) = blockFull (storeByte s v) := rfl
  simp only [absorbByte, hfull]
  split <;> rfl

theorem absorb_setCmdIn (data : List Byte) (s : State) (c : List Byte) :
    absorb data { s with cmdIn := c } = { absorb data s with cmdIn := c } := by
  induction data generalizing s with
  | nil => rfl
  | cons v vs ih => rw [absorb_cons, absorbByte_setCmdIn, ih, absorb_cons]

/-- An instruction does the same whatever bytes wait on the command stream, and leaves them there. -/
theorem exec_setCmdIn {i : Instr} {s t : State} (h : exec i s = .next t) (c : List Byte) :
    exec i { s with cmdIn := c } = .next { t with cmdIn := c } := by
  obtain ⟨rfl, rfl⟩ | ⟨data, rfl, hflag, rfl⟩ | ⟨data, rfl, hflag, hpos, rfl⟩ | ⟨rfl, hflag, rfl⟩
    | ⟨rfl, hflag, hpos, rfl⟩ | ⟨hmicro, rfl⟩ := exec_next_cases h
  · rfl
  · exact exec_update_finalized (s := { s with cmdIn := c }) hflag data
  · obtain hlt | rfl := hpos
    · rw [exec_update_absorbing (s := { s with cmdIn := c }) hflag hlt, absorb_setCmdIn]
      rfl
    · exact exec_update_nil hflag
  · exact exec_finalize_finalized hflag
  · exact exec_finalize_absorbing hflag hpos
  · exact exec_microOp hmicro _

/-- Settles O12: a step takes the first frame and runs its command, which leaves the rest of the stream as it was and
the engine idle in the invariant. -/
theorem commandStreamIsTheCompositionOfItsCommands : Obligations.CommandStreamIsTheCompositionOfItsCommands := by
  unfold Obligations.CommandStreamIsTheCompositionOfItsCommands
  intro s cs rest hinv hidle hrx hcs hcmdIn
  induction cs generalizing s with
  | nil =>
    have hrest : s.cmdIn = rest := hcmdIn
    rw [← hrest]
    rfl
  | cons i is ih =>
    obtain ⟨hi, his⟩ := List.forall_mem_cons.mp hcs
    have hhead : s.rx ++ s.cmdIn = encode i ++ (commandStream is ++ rest) := by
      simp [hrx, hcmdIn, commandStream]
    have hstep : step s = exec i { s with rx := [], cmdIn := commandStream is ++ rest } :=
      stepWith_encode hidle hi.1 hi.2 hhead
    have htaken : StateInv { s with rx := [], cmdIn := commandStream is ++ rest } := stateInv_setStream hinv rfl _
    obtain ⟨t, ht⟩ := everyInstructionCompletes i _ htaken
    have hports := samePorts_of_exec ht
    have hidle' : Idle t := ⟨hports.resetIn.trans hidle.noReset, hports.seq.trans hidle.noSeq,
      hports.running.trans hidle.noRunning⟩
    have hinv' : StateInv t := stateInv_exec htaken (fun _ => hidle.noRunning) ht
    have hexec : exec i { s with cmdIn := rest } = .next { t with cmdIn := rest } := by
      have := exec_setCmdIn ht rest
      rwa [← hrx] at this
    rw [List.length_cons, coreRun_next (hstep.trans ht), runAll_next hexec,
      ih t hinv' hidle' hports.rx his hports.cmdIn]

end Sys2Proof.Machine

/-! PROOFS. UPDATE and FINALIZE in the Absorbing state (spec/41_sponge.md R112, R113, R116, R119, R121). -/

namespace Sys2Proof.Machine

open Sys2Proof.Safety

/-! ## UPDATE -/

/-- Settles O33: UPDATE is the fold and its response. -/
theorem updateAbsorbsItsPayload : Obligations.UpdateAbsorbsItsPayload := by
  unfold Obligations.UpdateAbsorbsItsPayload
  intro s data hflag hpos
  have hlt : s.ratePos.toNat < 136 := by omega
  have hexec := exec_update_absorbing hflag hlt data
  refine ⟨_, hexec, rfl, absorb_ratePos hlt data, ?_, ?_, samePorts_of_exec hexec⟩
  · rw [respond_finalized, absorb_finalized, hflag]
  · rw [respond_respOut, absorb_respOut]
    rfl

/-- The stores of ABSORB_BYTE alone, for a payload that fits in the block: what UPDATE does before any permutation
(R112). -/
def storeAll (data : List Byte) (s : State) : State := data.foldl storeByte s

theorem storeAll_cons (v : Byte) (vs : List Byte) (s : State) :
    storeAll (v :: vs) s = storeAll vs (storeByte s v) := rfl

/-- The stores write the State and the cursor only. -/
theorem storeAll_eq (data : List Byte) (s : State) :
    storeAll data s = { s with mem := (storeAll data s).mem, ratePos := (storeAll data s).ratePos } := by
  induction data generalizing s with
  | nil => rfl
  | cons v vs ih => exact ih (storeByte s v)

theorem wf_storeAll {s : State} (hm : Memory.wf s.mem = true) {data : List Byte}
    (hfits : s.ratePos.toNat + data.length ≤ 136) : Memory.wf (storeAll data s).mem = true := by
  induction data generalizing s with
  | nil => exact hm
  | cons v vs ih =>
    rw [List.length_cons] at hfits
    have hlt : s.ratePos.toNat < 136 := by omega
    exact ih (wf_storeByte hm hlt v) (by rw [toNat_storeByte_ratePos hlt]; omega)

/-- Bytes XORed in at an address: the first there, the others from the next address on. -/
theorem xoredFrom_cons {lo : Nat} {v : Byte} {vs : List Byte} {s t : State} {m : List Host.Cell}
    (hfirst : XoredFrom lo [v] s t.mem) (hrest : XoredFrom (lo + 1) vs t m) : XoredFrom lo (v :: vs) s m := by
  intro a ha
  rw [hrest a ha, hfirst a ha, BitVec.xor_assoc]
  congr 1
  rcases Nat.lt_trichotomy a lo with hlt | heq | hgt
  · simp [Nat.not_le.mpr hlt, show ¬ lo + 1 ≤ a by omega]
  · simp [heq]
  · obtain ⟨n, rfl⟩ : ∃ n, a = lo + 1 + n := ⟨a - (lo + 1), by omega⟩
    have hpred : lo + 1 + n - lo = n + 1 := by omega
    simp [hpred, show lo ≤ lo + 1 + n by omega]

/-- The stores XOR the payload in at the cursor (R112). -/
theorem xoredFrom_storeAll {s : State} (hm : Memory.wf s.mem = true) {data : List Byte}
    (hfits : s.ratePos.toNat + data.length ≤ 136) : XoredFrom s.ratePos.toNat data s (storeAll data s).mem := by
  induction data generalizing s with
  | nil => intro a _; simp [storeAll]
  | cons v vs ih =>
    rw [List.length_cons] at hfits
    have hlt : s.ratePos.toNat < 136 := by omega
    have hnext := toNat_storeByte_ratePos hlt v
    have hrest := ih (wf_storeByte hm hlt v) (by omega)
    rw [hnext] at hrest
    exact xoredFrom_cons (xoredFrom_storeByte hm v) hrest

/-- A payload that does not fill the block is stored. -/
theorem absorb_eq_storeAll {s : State} {data : List Byte} (hfits : s.ratePos.toNat + data.length < 136) :
    absorb data s = storeAll data s := by
  induction data generalizing s with
  | nil => rfl
  | cons v vs ih =>
    rw [List.length_cons] at hfits
    have hlt : s.ratePos.toNat < 136 := by omega
    rw [absorb_cons, storeAll_cons, absorbByte_eq hlt, if_neg (by omega)]
    exact ih (by rw [toNat_storeByte_ratePos hlt]; omega)

/-- A payload that just fills the block is stored and permuted, and the cursor is 0 (R112). -/
theorem absorb_fills_block {s : State} {data : List Byte} (hpos : s.ratePos.toNat < 136)
    (hfills : s.ratePos.toNat + data.length = 136) :
    absorb data s = clearCursor (permuteState (storeAll data s)) := by
  induction data generalizing s with
  | nil => rw [List.length_nil] at hfills; omega
  | cons v vs ih =>
    rw [List.length_cons] at hfills
    rw [absorb_cons, storeAll_cons, absorbByte_eq hpos]
    by_cases hlast : s.ratePos.toNat = 135
    · obtain rfl : vs = [] := List.length_eq_zero_iff.mp (by omega)
      rw [if_pos hlast]
      rfl
    · rw [if_neg hlast]
      have hnext := toNat_storeByte_ratePos hpos v
      exact ih (by omega) (by omega)

/-- Settles O34: the payload is stored without a permutation, and its bytes reach no other address. -/
theorem updateWithinABlockStoresAtTheCursor : Obligations.UpdateWithinABlockStoresAtTheCursor := by
  unfold Obligations.UpdateWithinABlockStoresAtTheCursor
  intro s t data hm hflag hfits h
  rw [exec_update_absorbing hflag (by omega), Host.Outcome.next.injEq, absorb_eq_storeAll hfits] at h
  subst h
  have hxored := xoredFrom_storeAll hm hfits.le
  refine ⟨hxored, fun a ha hother => ?_⟩
  rw [respond_mem, hxored a ha]
  by_cases hlo : s.ratePos.toNat ≤ a
  · have hpast : data.length ≤ a - s.ratePos.toNat := by
      by_contra hin
      exact hother ⟨hlo, by omega⟩
    rw [if_pos hlo, List.getD_eq_default _ _ hpast, BitVec.xor_zero]
  · rw [if_neg hlo, BitVec.xor_zero]

/-- Settles O35: the bytes that fit are stored, which determines the State that is permuted, and the fold goes on from
cursor 0. -/
theorem updateThatFillsTheBlockPermutes : Obligations.UpdateThatFillsTheBlockPermutes := by
  unfold Obligations.UpdateThatFillsTheBlockPermutes
  intro s data m hm hflag hpos hfull hwf hxored
  have hlt : s.ratePos.toNat < 136 := by omega
  have hfills : s.ratePos.toNat + (data.take (136 - s.ratePos.toNat)).length = 136 := by
    rw [List.length_take]
    omega
  have hstored : (storeAll (data.take (136 - s.ratePos.toNat)) s).mem = m :=
    mem_eq_of_xoredFrom (wf_storeAll hm hfills.le) hwf (xoredFrom_storeAll hm hfills.le) hxored
  have hblock : absorb (data.take (136 - s.ratePos.toNat)) s
      = { s with mem := l2b (permute (b2l m)), ratePos := 0#8 } := by
    rw [absorb_fills_block hlt hfills, storeAll_eq, hstored]
    rfl
  have hrest := exec_update_absorbing (s := { s with mem := l2b (permute (b2l m)), ratePos := 0#8 }) hflag
    (Nat.zero_lt_succ 135) (data.drop (136 - s.ratePos.toNat))
  rw [hrest, exec_update_absorbing hflag hlt, ← hblock, ← absorb_append, List.take_append_drop]

/-- A chunk absorbed and answered leaves the State, the cursor and the flag of the fold alone. -/
theorem runAll_updates (chunks : List (List Byte)) {s : State} (hflag : s.finalized = false)
    (hpos : s.ratePos.toNat < 136) :
    ∃ t, runAll (chunks.map .update) s = .next t ∧ t.mem = (absorb chunks.flatten s).mem
      ∧ t.ratePos = (absorb chunks.flatten s).ratePos ∧ t.finalized = false := by
  induction chunks generalizing s with
  | nil => exact ⟨s, rfl, rfl, rfl, hflag⟩
  | cons c cs ih =>
    have hflag' : (respond (.status .ok) (absorb c s)).finalized = false := by
      rw [respond_finalized, absorb_finalized, hflag]
    have hpos' : (respond (.status .ok) (absorb c s)).ratePos.toNat < 136 := by
      rw [respond_ratePos, absorb_ratePos hpos]
      omega
    obtain ⟨t, hrun, htmem, htpos, htflag⟩ := ih hflag' hpos'
    have hresponse := absorb_congr (respond_mem (absorb c s) (.status .ok)) (respond_ratePos (absorb c s) (.status .ok))
      cs.flatten
    refine ⟨t, ?_, ?_, ?_, htflag⟩
    · rw [List.map_cons, runAll_next (exec_update_absorbing hflag hpos c), hrun]
    · rw [htmem, List.flatten_cons, absorb_append, hresponse.1]
    · rw [htpos, List.flatten_cons, absorb_append, hresponse.2]

/-- Settles O38: the fold over the chunks is the fold over their concatenation. -/
theorem streamingInvariance : Obligations.StreamingInvariance := by
  unfold Obligations.StreamingInvariance
  intro s chunks hflag hpos
  have hlt : s.ratePos.toNat < 136 := by omega
  obtain ⟨t, hrun, hmem, hcursor, htflag⟩ := runAll_updates chunks hflag hlt
  refine ⟨t, _, hrun, exec_update_absorbing hflag hlt _, hmem, hcursor, ?_⟩
  rw [htflag, respond_finalized, absorb_finalized, hflag]

/-! ## FINALIZE and the digest -/

/-- Settles O41: the padded State is determined by its bytes, and is permuted once. -/
theorem finalizePadsPermutesAndResponds : Obligations.FinalizePadsPermutesAndResponds := by
  unfold Obligations.FinalizePadsPermutesAndResponds
  intro s hm hflag hpos
  have hlt : s.ratePos.toNat < 136 := by omega
  have hexec := exec_finalize_absorbing hflag hlt
  refine ⟨_, hexec, fun m hwf hpadded => ?_, rfl, rfl, rfl, samePorts_of_exec hexec⟩
  have hpad : m = (pad s).mem :=
    mem_eq_of_read_eq_below hwf (wf_pad hm hlt) fun a ha => (hpadded a ha).trans (padded_pad hm hlt a ha).symm
  rw [hpad, respond_mem, setFinalized_mem, permuteState_mem]

theorem digest_getElem? (s : State) {j : Nat} (hj : j < 32) : (digest s)[j]? = some (Memory.read s.mem j) := by
  simp [digest, hj]

/-- Settles O43: the digest reads the first 32 bytes, which are the slices of the first four lanes. -/
theorem digestIsTheFirstThirtyTwoBytes : Obligations.DigestIsTheFirstThirtyTwoBytes := by
  unfold Obligations.DigestIsTheFirstThirtyTwoBytes
  refine fun s => ⟨by simp [digest], fun j hj => digest_getElem? s hj, fun i k hk => ?_, fun s' hsame => ?_⟩
  · rw [digest_getElem? s (by omega), memRead8, extractLsb'_laneOfBytes _ _ _ hk]
  · exact List.map_congr_left fun j hj => hsame j (List.mem_range.mp hj)

end Sys2Proof.Machine

/-! PROOFS. What the engine computes of a message, block by block (spec/41_sponge.md R124). -/

namespace Sys2Proof.Machine

open Sys2Proof.Safety

/-! ## The blocks of a message -/

/-- Only the rate bytes of a block have a part in the XOR (R124). -/
theorem xorRate_congr {T X X' : Nat → Byte} (h : ∀ j < 136, X j = X' j) : xorRate T X = xorRate T X' := by
  funext k
  unfold xorRate
  split
  · rw [h k ‹_›]
  · rfl

/-- Only the 200 bytes of an array have a part in its permutation. -/
theorem permuteBytes_congr {T T' : Nat → Byte} (h : ∀ k < 200, T k = T' k) : permuteBytes T = permuteBytes T' := by
  rw [permuteBytes, permuteBytes, b2lOf_congr h]

/-- A byte of the permuted State (R99). -/
theorem read_permuteState (s : State) {k : Nat} (hk : k < 200) :
    Memory.read (permuteState s).mem k = permuteBytes (Memory.read s.mem) k := by
  rw [permuteState_mem, read_l2b, if_pos hk]
  rfl

/-- A block that starts at or past the end of the message is zero. -/
theorem messageBlock_past_end {m : List Byte} {k : Nat} (h : m.length ≤ 136 * k) (j : Nat) :
    messageBlock m k j = 0x00#8 :=
  List.getD_eq_default _ _ (by simp only [Config.RATE]; omega)

/-- A block that ends within the message does not see what is appended. -/
theorem messageBlock_append {m : List Byte} {k j : Nat} (h : 136 * k + j < m.length) (m' : List Byte) :
    messageBlock (m ++ m') k j = messageBlock m k j :=
  List.getD_append _ _ _ _ h

/-- A byte appended to a message is XORed into its blocks at the message's old end. -/
theorem messageBlock_append_singleton (m : List Byte) (v : Byte) (k j : Nat) :
    messageBlock (m ++ [v]) k j = messageBlock m k j ^^^ (if 136 * k + j = m.length then v else 0x00#8) := by
  rcases Nat.lt_trichotomy (136 * k + j) m.length with hlt | heq | hgt
  · rw [messageBlock_append hlt, if_neg (by omega), BitVec.xor_zero]
  · simp [messageBlock, heq]
  · have hlen : (m ++ [v]).length ≤ 136 * k + j := by simpa using hgt
    have hnew : messageBlock (m ++ [v]) k j = 0x00#8 := List.getD_eq_default _ _ hlen
    have hold : messageBlock m k j = 0x00#8 := List.getD_eq_default _ _ hgt.le
    rw [hnew, hold, if_neg (by omega), BitVec.xor_zero]

/-- The whole blocks of a message do not see what is appended. -/
theorem blocksAbsorbed_append {m : List Byte} {k : Nat} (h : 136 * k ≤ m.length) (m' : List Byte) :
    blocksAbsorbed (m ++ m') k = blocksAbsorbed m k := by
  induction k with
  | zero => rfl
  | succ k ih =>
    rw [blocksAbsorbed, blocksAbsorbed, ih (by omega)]
    exact congrArg permuteBytes (xorRate_congr fun j hj => messageBlock_append (by omega) m')

/-! ## The State after absorbing a message -/

/-- The State that absorbing a message gives, in the terms of R124: the whole blocks absorbed, and the rest of the
message XORed in. -/
def messageState (m : List Byte) : Nat → Byte :=
  xorRate (blocksAbsorbed m (m.length / 136)) (messageBlock m (m.length / 136))

theorem absorbedFromReset_append (m m' : List Byte) :
    absorbedFromReset (m ++ m') = absorb m' (absorbedFromReset m) := absorb_append m m' State.reset

theorem wf_absorbedFromReset (m : List Byte) : Memory.wf (absorbedFromReset m).mem = true :=
  wf_absorb rfl (by decide) m

theorem absorbedFromReset_ratePos_lt (m : List Byte) : (absorbedFromReset m).ratePos.toNat < 136 := by
  rw [absorbedFromReset_ratePos]
  omega

/-- The store of one more byte of a message: its byte is at the cursor in the block in progress. -/
theorem read_storeByte_absorbedFromReset {m : List Byte}
    (hm : ∀ a < 200, Memory.read (absorbedFromReset m).mem a = messageState m a) (v : Byte) {a : Nat} (ha : a < 200) :
    Memory.read (storeByte (absorbedFromReset m) v).mem a =
      xorRate (blocksAbsorbed m (m.length / 136)) (messageBlock (m ++ [v]) (m.length / 136)) a := by
  have hread := read_xorByte (wf_absorbedFromReset m) (absorbedFromReset m).ratePos.toNat v a
  rw [absorbedFromReset_ratePos, hm a ha] at hread
  have hstore : Memory.read (storeByte (absorbedFromReset m) v).mem a
      = messageState m a ^^^ (if a = m.length % 136 then v else 0x00#8) := by
    rw [← hread, ← absorbedFromReset_ratePos]
    rfl
  have hcursor : 136 * (m.length / 136) + a = m.length ↔ a = m.length % 136 := by omega
  rw [hstore, messageState]
  by_cases hrate : a < 136
  · simp only [xorRate, Config.RATE, if_pos hrate, messageBlock_append_singleton, hcursor, BitVec.xor_assoc]
  · rw [if_neg (by omega), BitVec.xor_zero]
    simp only [xorRate, Config.RATE, if_neg hrate]

/-- Absorbing a message byte by byte gives the State of absorbing it block by block (R113, R124). -/
theorem read_absorbedFromReset (m : List Byte) {a : Nat} (ha : a < 200) :
    Memory.read (absorbedFromReset m).mem a = messageState m a := by
  induction m using List.reverseRecOn generalizing a with
  | nil => simp [absorbedFromReset, State.reset, Memory.read, Memory.unlisted, messageState, xorRate, blocksAbsorbed,
      messageBlock]
  | append_singleton m v ih =>
    have hstored := fun a ha => read_storeByte_absorbedFromReset (m := m) (fun _ => ih) v (a := a) ha
    have hpos := absorbedFromReset_ratePos m
    have hwhole := blocksAbsorbed_append (m := m) (k := m.length / 136) (by omega) [v]
    rw [absorbedFromReset_append, absorb_cons, absorb_nil, absorbByte_eq (absorbedFromReset_ratePos_lt m), messageState,
      List.length_append, List.length_singleton]
    by_cases hlast : m.length % 136 = 135
    · have hq : (m.length + 1) / 136 = m.length / 136 + 1 := by omega
      have hzero : xorRate (blocksAbsorbed (m ++ [v]) (m.length / 136 + 1))
          (messageBlock (m ++ [v]) (m.length / 136 + 1)) a = blocksAbsorbed (m ++ [v]) (m.length / 136 + 1) a := by
        rw [xorRate, messageBlock_past_end (by rw [List.length_append, List.length_singleton]; omega), BitVec.xor_zero,
          ite_self]
      rw [if_pos (hpos.trans hlast), hq, hzero, clearCursor_mem, read_permuteState _ ha, permuteBytes_congr hstored,
        blocksAbsorbed, hwhole]
    · have hq : (m.length + 1) / 136 = m.length / 136 := by omega
      rw [if_neg (fun h => hlast (hpos.symm.trans h)), hq, hwhole]
      exact hstored a ha

/-! ## The digest of a message -/

/-- The padded State is the block in progress with the padded last block XORed in (R117, R124). -/
theorem read_pad_absorbedFromReset (m : List Byte) {a : Nat} (ha : a < 200) :
    Memory.read (pad (absorbedFromReset m)).mem a =
      xorRate (blocksAbsorbed m (m.length / 136)) (paddedBlock m) a := by
  rw [read_pad (wf_absorbedFromReset m) (absorbedFromReset_ratePos_lt m), read_absorbedFromReset m ha,
    absorbedFromReset_ratePos, messageState]
  by_cases hrate : a < 136
  · simp only [xorRate, Config.RATE, if_pos hrate, paddedBlock, Config.SUFFIX, Config.FINAL, BitVec.xor_assoc]
  · rw [if_neg (show ¬ a = m.length % 136 by omega), if_neg (show ¬ a = 135 by omega), BitVec.xor_zero,
      BitVec.xor_zero]
    simp only [xorRate, Config.RATE, if_neg hrate]

/-- FINALIZE of a message leaves `T_final` (R119, R124). -/
theorem read_finalizedFromReset (m : List Byte) {a : Nat} (ha : a < 200) :
    Memory.read (finalizedFromReset m).mem a = messageFinal m a := by
  rw [finalizedFromReset, setFinalized_mem, read_permuteState _ ha,
    permuteBytes_congr fun _ hk => read_pad_absorbedFromReset m hk]
  rfl

/-- The digest after a message is the digest of the message (R121, R124). -/
theorem digest_finalizedFromReset (m : List Byte) : digest (finalizedFromReset m) = messageDigest m :=
  List.map_congr_left fun j hj => by
    have hj32 : j < 32 := List.mem_range.mp hj
    exact read_finalizedFromReset m (by omega)

end Sys2Proof.Machine

/-! PROOFS. Sessions: the history invariant, command by command and over every run from reset (spec/10_state.md R37,
spec/41_sponge.md R110, R124 to R126). -/

namespace Sys2Proof.Machine

open Sys2Proof.Safety

/-! ## What keeps a state in agreement with a session -/

/-- A session determines the State, the cursor and the flag (R37). -/
theorem agrees_unique {h : Session} {s t : State} (hs : h.Agrees s) (ht : h.Agrees t) :
    s.mem = t.mem ∧ s.ratePos = t.ratePos ∧ s.finalized = t.finalized :=
  ⟨hs.mem.trans ht.mem.symm, BitVec.eq_of_toNat_eq (hs.cursor.trans ht.cursor.symm), hs.flag.trans ht.flag.symm⟩

/-- A response has no part in the agreement. -/
theorem agrees_respond {h : Session} {s : State} (hs : h.Agrees s) (r : Response) : h.Agrees (respond r s) :=
  ⟨hs.flag, hs.cursor, hs.mem⟩

theorem agrees_absorbedFromReset (m : List Byte) : Session.Agrees ⟨false, m⟩ (absorbedFromReset m) :=
  (Tests.witness_EveryCommandKeepsTheSession m).2.1

theorem cursor_of_agrees {h : Session} {s : State} (hs : h.Agrees s) : s.ratePos.toNat < 136 := by
  rw [hs.cursor]
  exact Nat.mod_lt _ (by decide)

/-- RESET starts a new session from every state (R111). -/
theorem agrees_after_reset (s : State) : Session.start.Agrees (respond (.status .ok) (zeroState s)) := ⟨rfl, rfl, rfl⟩

/-- Absorbing a payload carries an open session on (R37(c)). -/
theorem agrees_absorb {m : List Byte} {s : State} (hs : Session.Agrees ⟨false, m⟩ s) (data : List Byte) :
    Session.Agrees ⟨false, m ++ data⟩ (absorb data s) := by
  obtain ⟨hmem, hpos, -⟩ := agrees_unique hs (agrees_absorbedFromReset m)
  obtain ⟨hmem', hpos'⟩ := absorb_congr hmem hpos data
  rw [← absorbedFromReset_append] at hmem' hpos'
  exact ⟨(absorb_finalized data s).trans hs.flag, by rw [hpos']; exact absorbedFromReset_ratePos _, hmem'⟩

/-- PAD reads the State and the cursor only. -/
theorem pad_congr {s t : State} (hm : s.mem = t.mem) (hp : s.ratePos = t.ratePos) : (pad s).mem = (pad t).mem := by
  simp only [pad_mem, xorByte_mem, hm, hp]

/-- FINALIZE closes an open session (R37(d)). -/
theorem agrees_finalize {m : List Byte} {s : State} (hs : Session.Agrees ⟨false, m⟩ s) :
    Session.Agrees ⟨true, m⟩ (setFinalized (permuteState (pad s))) := by
  obtain ⟨hmem, hpos, -⟩ := agrees_unique hs (agrees_absorbedFromReset m)
  refine ⟨rfl, hs.cursor, ?_⟩
  simp only [setFinalized_mem, permuteState_mem, finalizedFromReset, pad_congr hmem hpos, if_true]

/-- The digest of a closed session is that of its message (R37(d), R124). -/
theorem digest_of_agrees {m : List Byte} {s : State} (hs : Session.Agrees ⟨true, m⟩ s) :
    digest s = messageDigest m :=
  (digest_congr hs.mem).trans (digest_finalizedFromReset m)

/-! ## One command -/

/-- The response bytes a session owes to a command (R70, R110). -/
def owedFrame (h : Session) (i : Instr) : List Byte := ((h.response i).map Response.frame).getD []

/-- Every command completes, keeps the agreement with the session, and appends the response it owes. -/
theorem exec_of_agrees {h : Session} {s : State} (hs : h.Agrees s) {i : Instr} (hcmd : i.isCommand = true) :
    ∃ t, exec i s = .next t ∧ (h.after i).Agrees t ∧ t.respOut = s.respOut ++ owedFrame h i := by
  obtain ⟨closed, m⟩ := h
  have hflag : s.finalized = closed := hs.flag
  cases i with
  | reset => exact ⟨_, exec_reset s, agrees_after_reset s, rfl⟩
  | update data =>
    cases closed with
    | true => exact ⟨_, exec_update_finalized hflag data, agrees_respond hs _, rfl⟩
    | false =>
      refine ⟨_, exec_update_absorbing hflag (cursor_of_agrees hs) data, agrees_respond (agrees_absorb hs data) _, ?_⟩
      rw [respond_respOut, absorb_respOut]
      rfl
  | finalize =>
    cases closed with
    | true =>
      refine ⟨_, exec_finalize_finalized hflag, agrees_respond hs _, ?_⟩
      rw [respond_respOut, digest_of_agrees hs]
      rfl
    | false =>
      have hclosed := agrees_finalize hs
      refine ⟨_, exec_finalize_absorbing hflag (cursor_of_agrees hs), agrees_respond hclosed _, ?_⟩
      rw [respond_respOut, digest_of_agrees hclosed]
      rfl
  | _ => cases hcmd

/-- Settles O60: `exec_of_agrees`, and an instruction has one next state. -/
theorem everyCommandKeepsTheSession : Obligations.EveryCommandKeepsTheSession := by
  unfold Obligations.EveryCommandKeepsTheSession
  intro h s i hs hcmd
  obtain ⟨t, hexec, hafter⟩ := exec_of_agrees hs hcmd
  refine ⟨⟨t, hexec⟩, fun t' hexec' => ?_⟩
  rw [hexec, Host.Outcome.next.injEq] at hexec'
  exact hexec' ▸ hafter

/-! ## Command sequences -/

/-- Every command sequence completes, ends in agreement with its session, and appends the responses it owes. -/
theorem runAll_of_agrees {cs : List Instr} (hcs : ∀ i ∈ cs, i.isCommand = true) {h : Session} {s : State}
    (hs : h.Agrees s) :
    ∃ t, runAll cs s = .next t ∧ (Session.afterAll cs h).Agrees t
      ∧ t.respOut = s.respOut ++ Session.responses cs h := by
  induction cs generalizing h s with
  | nil => exact ⟨s, rfl, hs, (List.append_nil _).symm⟩
  | cons i is ih =>
    obtain ⟨hi, his⟩ := List.forall_mem_cons.mp hcs
    obtain ⟨u, hexec, hu, huresp⟩ := exec_of_agrees hs hi
    obtain ⟨t, hrun, ht, htresp⟩ := ih his hu
    refine ⟨t, (runAll_next hexec).trans hrun, ht, ?_⟩
    rw [htresp, huresp, List.append_assoc]
    rfl

theorem agrees_reset : Session.start.Agrees State.reset := resetMeetsTheInvariant.2

/-- Settles O57: the run from reset ends in agreement with its session, and a closed session has the digest of its
message. -/
theorem sessionDeterminesTheState : Obligations.SessionDeterminesTheState := by
  unfold Obligations.SessionDeterminesTheState
  intro cs hcs
  obtain ⟨t, hrun, ht, -⟩ := runAll_of_agrees hcs agrees_reset
  refine ⟨t, hrun, ht.flag, ht.cursor, ?_⟩
  generalize Session.afterAll cs .start = h at ht
  obtain ⟨closed, m⟩ := h
  have hflag : t.finalized = closed := ht.flag
  cases closed with
  | false => exact ⟨fun _ => ht.mem, fun hclosed => by simp [hflag] at hclosed⟩
  | true => exact ⟨fun hopen => by simp [hflag] at hopen, fun _ => ⟨ht.mem, digest_of_agrees ht⟩⟩

/-- Settles O58: the run starts with an empty response stream. -/
theorem responseStreamOfEverySession : Obligations.ResponseStreamOfEverySession := by
  unfold Obligations.ResponseStreamOfEverySession
  intro cs hcs
  obtain ⟨t, hrun, -, hresp⟩ := runAll_of_agrees hcs agrees_reset
  exact ⟨t, hrun, hresp⟩

/-- Settles O31: after RESET and after hardware reset the same session starts, and a session determines what follows. -/
theorem resetForgetsThePast : Obligations.ResetForgetsThePast := by
  unfold Obligations.ResetForgetsThePast
  intro s cs hcs
  obtain ⟨t, hrunt, ht, htresp⟩ := runAll_of_agrees hcs (agrees_after_reset s)
  obtain ⟨u, hrunu, hu, huresp⟩ := runAll_of_agrees hcs agrees_reset
  obtain ⟨hmem, hpos, hflag⟩ := agrees_unique ht hu
  exact ⟨t, u, _, (runAll_next (exec_reset s)).trans hrunt, hrunu, hmem, hpos, hflag, huresp, htresp⟩

/-- The responses to a message in chunks and FINALIZE: one `OK` for each chunk, and the digest of the whole (R124). -/
theorem responses_updates_finalize (chunks : List (List Byte)) (m : List Byte) :
    Session.responses (chunks.map .update ++ [.finalize]) ⟨false, m⟩ =
      List.replicate chunks.length 0x00#8 ++ 0x00#8 :: messageDigest (m ++ chunks.flatten) := by
  induction chunks generalizing m with
  | nil => simp [Session.responses, Session.response, Response.frame, Status.code]
  | cons c cs ih =>
    simp [Session.responses, Session.response, Session.after, Response.frame, Status.code, ih, List.replicate_succ]

/-- Settles O56: RESET starts a session, whose responses are counted by `responses_updates_finalize`. -/
theorem digestOfAMessage : Obligations.DigestOfAMessage := by
  unfold Obligations.DigestOfAMessage
  intro s chunks
  have hcs : ∀ i ∈ chunks.map Instr.update ++ [.finalize], i.isCommand = true := by
    simp [Instr.isCommand, or_imp, forall_and]
  obtain ⟨t, hrun, -, hresp⟩ := runAll_of_agrees hcs (agrees_after_reset s)
  refine ⟨t, (runAll_next (exec_reset s)).trans hrun, ?_⟩
  rw [hresp, Session.start, responses_updates_finalize, respond_respOut, List.replicate_succ]
  simp [Response.frame, Status.code]

end Sys2Proof.Machine

/-! PROOFS. Bytes and lanes of the State under writes (spec/20_memory.md R46, R57). -/

namespace Sys2Proof.Machine

/-! ## A lane is its eight bytes -/

/-- Lanes with the same eight bytes are equal. -/
theorem lane_eq_of_bytes_eq {u v : Lane} (h : ∀ j < 8, u.extractLsb' (8 * j) 8 = v.extractLsb' (8 * j) 8) : u = v := by
  refine BitVec.eq_of_getLsbD_eq fun k hk => ?_
  have hbyte := congrArg (fun b : Byte => b.getLsbD (k % 8)) (h (k / 8) (by omega))
  have hsplit : 8 * (k / 8) + k % 8 = k := Nat.div_add_mod k 8
  simpa [BitVec.getLsbD_extractLsb', hsplit, Nat.mod_lt] using hbyte

/-- Byte `j` of lane `i` of the State is the byte at `8i + j` (R44). -/
theorem extractLsb'_memRead8 (i : Fin 25) (s : State) {j : Nat} (hj : j < 8) :
    (memRead8 i s).extractLsb' (8 * j) 8 = Memory.read s.mem (8 * i.val + j) :=
  extractLsb'_laneOfBytes _ _ _ hj

/-- Lanes whose bytes read alike are equal. -/
theorem memRead8_congr {i : Fin 25} {s t : State}
    (h : ∀ j < 8, Memory.read s.mem (8 * i.val + j) = Memory.read t.mem (8 * i.val + j)) :
    memRead8 i s = memRead8 i t := laneOfBytes_congr h

/-- Byte `j` of a byte shifted to place `p` of a lane: that byte in its place, and zero elsewhere. -/
theorem extractLsb'_shiftedByte (v : Byte) {p j : Nat} (hp : p < 8) (hj : j < 8) :
    ((v.zeroExtend 64 : Lane) <<< (8 * p)).extractLsb' (8 * j) 8 = if j = p then v else 0x00#8 := by
  refine BitVec.eq_of_getLsbD_eq fun k hk => ?_
  have hin : 8 * j + k < 64 := by omega
  simp only [BitVec.getLsbD_extractLsb', BitVec.getLsbD_shiftLeft, BitVec.getLsbD_setWidth, hk, hin, decide_true,
    Bool.true_and]
  rcases Nat.lt_trichotomy j p with hlt | rfl | hgt
  · have hbelow : 8 * j + k < 8 * p := by omega
    simp [hbelow, hlt.ne]
  · have hplace : 8 * j + k - 8 * j = k := by omega
    simp [hplace, show k < 64 by omega]
  · have habove : v.getLsbD (8 * j + k - 8 * p) = false := BitVec.getLsbD_of_ge _ _ (by omega)
    simp [habove, hgt.ne']

/-- Settles O26: byte by byte of the lane. -/
theorem byteXorIsALaneXor : Obligations.ByteXorIsALaneXor := by
  unfold Obligations.ByteXorIsALaneXor
  intro s k v i hm
  have hread := read_xorByte hm k.val v
  split
  · refine lane_eq_of_bytes_eq fun j hj => ?_
    have hplace : 8 * i.val + j = k.val ↔ j = k.val % 8 := by omega
    have hxor : (memRead8 i s ^^^ (v.zeroExtend 64 <<< (8 * (k.val % 8)))).extractLsb' (8 * j) 8
        = (memRead8 i s).extractLsb' (8 * j) 8
          ^^^ ((v.zeroExtend 64 : Lane) <<< (8 * (k.val % 8))).extractLsb' (8 * j) 8 :=
      BitVec.extractLsb'_xor
    rw [hxor, extractLsb'_memRead8 _ _ hj, extractLsb'_memRead8 _ _ hj, hread,
      extractLsb'_shiftedByte v (Nat.mod_lt _ (by decide)) hj]
    simp only [hplace]
  · refine memRead8_congr fun j hj => ?_
    rw [hread, if_neg (by omega), BitVec.xor_zero]

/-! ## Reads after writes -/

/-- The first `n` byte writes of a lane write keep the canonical form. -/
theorem wf_writeBytes {m : List Host.Cell} (hm : Memory.wf m = true) (i : Fin 25) (v : Lane) {n : Nat} (hn : n ≤ 8) :
    Memory.wf ((List.range n).foldl (fun m j => Memory.write m (8 * i.val + j) (v.extractLsb' (8 * j) 8)) m)
      = true := by
  induction n with
  | zero => exact hm
  | succ n ih =>
    rw [List.range_succ, List.foldl_append]
    exact Memory.wf_write (ih (by omega)) (by omega)

/-- What reads after the first `n` byte writes of a lane write. -/
theorem read_writeBytes {m : List Host.Cell} (hm : Memory.wf m = true) (i : Fin 25) (v : Lane) {n : Nat} (hn : n ≤ 8)
    (a : Nat) :
    Memory.read ((List.range n).foldl (fun m j => Memory.write m (8 * i.val + j) (v.extractLsb' (8 * j) 8)) m) a =
      if a / 8 = i.val ∧ a % 8 < n then v.extractLsb' (8 * (a % 8)) 8 else Memory.read m a := by
  induction n with
  | zero => simp
  | succ n ih =>
    rw [List.range_succ, List.foldl_append, List.foldl_cons, List.foldl_nil,
      Memory.read_write (wf_writeBytes hm i v (by omega)), ih (by omega)]
    by_cases ha : a = 8 * i.val + n
    · have hplace : a / 8 = i.val ∧ a % 8 < n + 1 := by omega
      have hmod : a % 8 = n := by omega
      rw [if_pos ha, if_pos hplace, hmod]
    · have hiff : (a / 8 = i.val ∧ a % 8 < n + 1) ↔ (a / 8 = i.val ∧ a % 8 < n) := by omega
      rw [if_neg ha]
      simp only [hiff]

section Canonical

variable {s : State} (hm : Memory.wf s.mem = true)
include hm

theorem wf_memWrite1 (b : Fin 200) (v : Byte) : Memory.wf (memWrite1 b v s).mem = true := Memory.wf_write hm b.isLt

theorem wf_memWrite8 (j : Fin 25) (v : Lane) : Memory.wf (memWrite8 j v s).mem = true :=
  wf_writeBytes hm j v le_rfl

theorem read_memWrite1 (b : Fin 200) (v : Byte) (a : Nat) :
    Memory.read (memWrite1 b v s).mem a = if a = b.val then v else Memory.read s.mem a := Memory.read_write hm a b.val v

theorem read_memWrite8 (j : Fin 25) (v : Lane) (a : Nat) :
    Memory.read (memWrite8 j v s).mem a =
      if a / 8 = j.val then v.extractLsb' (8 * (a % 8)) 8 else Memory.read s.mem a := by
  have hlow : a % 8 < 8 := Nat.mod_lt _ (by decide)
  have hread := read_writeBytes hm j v le_rfl a
  simp only [hlow, and_true] at hread
  exact hread

theorem memRead1_memWrite1 (a b : Fin 200) (v : Byte) :
    memRead1 a (memWrite1 b v s) = if a = b then v else memRead1 a s := by
  rw [memRead1, read_memWrite1 hm, memRead1]
  simp only [Fin.ext_iff]

theorem memRead8_memWrite8 (i j : Fin 25) (v : Lane) :
    memRead8 i (memWrite8 j v s) = if i = j then v else memRead8 i s := by
  have hdiv : ∀ k < 8, (8 * i.val + k) / 8 = i.val := by omega
  split
  · rename_i hij
    subst hij
    refine lane_eq_of_bytes_eq fun k hk => ?_
    have hmod : (8 * i.val + k) % 8 = k := by omega
    rw [extractLsb'_memRead8 _ _ hk, read_memWrite8 hm, if_pos (hdiv k hk), hmod]
  · rename_i hij
    refine memRead8_congr fun k hk => ?_
    rw [read_memWrite8 hm, hdiv k hk, if_neg (fun h => hij (Fin.ext h))]

theorem memRead1_memWrite8 (a : Fin 200) (j : Fin 25) (v : Lane) :
    memRead1 a (memWrite8 j v s) = if a.val / 8 = j.val then v.extractLsb' (8 * (a.val % 8)) 8 else memRead1 a s :=
  read_memWrite8 hm j v a.val

theorem memRead8_memWrite1_same {i : Fin 25} {b : Fin 200} (hib : i.val = b.val / 8) (v : Byte) {j : Nat} (hj : j < 8) :
    (memRead8 i (memWrite1 b v s)).extractLsb' (8 * j) 8 =
      if j = b.val % 8 then v else (memRead8 i s).extractLsb' (8 * j) 8 := by
  have hplace : 8 * i.val + j = b.val ↔ j = b.val % 8 := by omega
  rw [extractLsb'_memRead8 _ _ hj, extractLsb'_memRead8 _ _ hj, read_memWrite1 hm]
  simp only [hplace]

theorem memRead8_memWrite1_other {i : Fin 25} {b : Fin 200} (hib : i.val ≠ b.val / 8) (v : Byte) :
    memRead8 i (memWrite1 b v s) = memRead8 i s := by
  refine memRead8_congr fun j hj => ?_
  rw [read_memWrite1 hm, if_neg (by omega)]

end Canonical

/-- Settles O27: one lemma for each pair of a read and a write. -/
theorem memoryPrimitivesReadBackWhatWasWritten : Obligations.MemoryPrimitivesReadBackWhatWasWritten := by
  unfold Obligations.MemoryPrimitivesReadBackWhatWasWritten
  exact fun s hm => ⟨memRead1_memWrite1 hm, memRead8_memWrite8 hm, memRead1_memWrite8 hm,
    fun _ _ v => ⟨fun hib _ hj => memRead8_memWrite1_same hm hib v hj, fun hib => memRead8_memWrite1_other hm hib v⟩,
    wf_memWrite1 hm, wf_memWrite8 hm⟩

end Sys2Proof.Machine

/-! PROOFS. The steps of the permutation engine (spec/40_permutation.md R90 to R96, R102). -/

namespace Sys2Proof.Machine

open Sys2Proof.Safety

/-! ## Rotation -/

/-- Settles O13: a bit of the result is the bit `n` places below it, modulo 64. -/
theorem rol64MovesEachBit : Obligations.Rol64MovesEachBit := by
  unfold Obligations.Rol64MovesEachBit
  intro v n k hn hk
  have hback : ((k + n) % 64 + (64 - n)) % 64 = k := by omega
  exact ⟨by rw [getLsbD_rol64 v n _ hn (by omega), hback], rfl⟩

theorem rol64_zero (v : Lane) : rol64 v 0 = v := rfl

/-- Rotation is linear over exclusive or. -/
theorem rol64_xor (u v : Lane) {n : Nat} (hn : n < 64) : rol64 (u ^^^ v) n = rol64 u n ^^^ rol64 v n := by
  refine BitVec.eq_of_getLsbD_eq fun k hk => ?_
  rw [BitVec.getLsbD_xor, getLsbD_rol64 _ _ _ hn hk, getLsbD_rol64 _ _ _ hn hk, getLsbD_rol64 _ _ _ hn hk,
    BitVec.getLsbD_xor]

/-! ## The lanes of the State after a micro-operation -/

/-- A micro-operation reads and writes the lanes only (R90). -/
theorem onlyLanesChange_mapLanes (f : Lanes → Lanes) (s : State) : OnlyLanesChange s (mapLanes f s) :=
  ⟨rfl, rfl, rfl, rfl, rfl, rfl, rfl, rfl⟩

theorem laneAt_eq_at2 (s : State) (x y : Fin 5) : laneAt s x y = at2 (b2l s.mem) x y := (at2_b2l s x y).symm

theorem laneAt_mapLanes (f : Lanes → Lanes) (s : State) (x y : Fin 5) :
    laneAt (mapLanes f s) x y = at2 (f (b2l s.mem)) x y := memRead8_mapLanes f s x y

/-- Settles O14: `at2_theta`, where `x - 1` is `x + 4` modulo 5. -/
theorem thetaXorsTheColumnParities : Obligations.ThetaXorsTheColumnParities := by
  unfold Obligations.ThetaXorsTheColumnParities
  refine fun rnd s => ⟨_, exec_theta rnd s, onlyLanesChange_mapLanes theta s, fun C hC x y => ?_⟩
  have hparity : ∀ x : Fin 5, (columnParity (b2l s.mem))[x] = C x := fun x => by
    rw [columnParity_getElem, hC]
    simp only [laneAt_eq_at2]
  have hleft : x + 4 = x - 1 := by revert x; decide
  rw [laneAt_mapLanes, at2_theta, hparity, hparity, hleft, laneAt_eq_at2, BitVec.xor_assoc]

/-- Settles O15: `at2_rho`, and the offset of lane `(0, 0)` is 0. -/
theorem rhoRotatesEachLane : Obligations.RhoRotatesEachLane := by
  unfold Obligations.RhoRotatesEachLane
  refine fun rnd s => ⟨_, exec_rho rnd s, onlyLanesChange_mapLanes rho s, ?_, fun x y k hk => ?_⟩
  · have hoffset : RHO[laneIndex 0 0].val = 0 := by decide
    rw [laneAt_mapLanes, at2_rho, hoffset, rol64_zero, laneAt_eq_at2]
  · rw [laneAt_mapLanes, at2_rho, laneAt_eq_at2]
    exact (rol64MovesEachBit _ _ k (RHO[laneIndex x y]).isLt hk).1

/-- The map of positions of PI, in its scatter form (R94). -/
def piTarget (p : Fin 5 × Fin 5) : Fin 5 × Fin 5 := (p.2, 2 * p.1 + 3 * p.2)

/-- The gather form of PI is the inverse of its scatter form (R94). -/
theorem piTarget_bijective : Function.Bijective piTarget :=
  Function.bijective_iff_has_inverse.mpr ⟨fun q => (q.1 + 3 * q.2, q.1), by decide, by decide⟩

theorem at2_pi_target (A : Lanes) (x y : Fin 5) : at2 (pi A) y (2 * x + 3 * y) = at2 A x y := by
  have hsource : y + 3 * (2 * x + 3 * y) = x := by revert x y; decide
  rw [at2_pi, hsource]

/-- Settles O16: the lane gathered at the target of `(x, y)` is the one at `(x, y)`. -/
theorem piRelocatesEachLane : Obligations.PiRelocatesEachLane := by
  unfold Obligations.PiRelocatesEachLane
  refine ⟨fun rnd s => ⟨_, exec_pi rnd s, onlyLanesChange_mapLanes pi s, fun x y => ?_⟩, piTarget_bijective, by decide⟩
  rw [laneAt_mapLanes, at2_pi_target, laneAt_eq_at2]

/-- Settles O17: `at2_chi`, bit by bit. -/
theorem chiMixesEachRow : Obligations.ChiMixesEachRow := by
  unfold Obligations.ChiMixesEachRow
  refine fun rnd s => ⟨_, exec_chi rnd s, onlyLanesChange_mapLanes chi s, fun x y k hk => ?_⟩
  rw [laneAt_mapLanes, at2_chi]
  simp only [laneAt_eq_at2, BitVec.getLsbD_xor, BitVec.getLsbD_and, BitVec.getLsbD_not, hk, decide_true, Bool.true_and]

/-- IOTA with the same round index twice is the identity (R96). -/
theorem iota_iota (A : Lanes) (r : Fin 24) : iota (iota A r) r = A := by
  refine lanes_ext fun x y => ?_
  simp only [at2_iota]
  split
  · rw [BitVec.xor_assoc, BitVec.xor_self, BitVec.xor_zero]
  · rfl

/-- Where two States have the same lane, its bytes read the same. -/
theorem read_eq_of_b2l_eq {m m' : List Host.Cell} {a : Nat} (ha : a < 200)
    (h : (b2l m)[(⟨a / 8, by omega⟩ : Fin 25)] = (b2l m')[(⟨a / 8, by omega⟩ : Fin 25)]) :
    Memory.read m a = Memory.read m' a := by
  have hbyte := congrArg (fun v : Lane => v.extractLsb' (8 * (a % 8)) 8) h
  simp only [getElem_b2l, extractLsb'_laneOfBytes _ _ _ (Nat.mod_lt a (show 8 > 0 by decide)), Nat.div_add_mod] at hbyte
  exact hbyte

/-- Settles O18: `at2_iota`; the lanes other than 0 are the same, and with them their bytes. -/
theorem iotaXorsTheRoundConstant : Obligations.IotaXorsTheRoundConstant := by
  unfold Obligations.IotaXorsTheRoundConstant
  refine fun rnd s => ⟨_, exec_iota rnd s, onlyLanesChange_mapLanes _ s, ?_, fun a ha hother => ?_,
    _, exec_iota rnd _, fun a ha _ => ?_⟩
  · rw [laneAt_mapLanes, at2_iota, if_pos ⟨rfl, rfl⟩, laneAt_eq_at2]
  · have hlane : 0 ≠ a / 8 := by omega
    refine read_eq_of_b2l_eq ha ?_
    simp only [mapLanes_mem, b2l_l2b, iota, Fin.getElem_fin]
    exact Vector.getElem_set_ne _ _ hlane
  · refine read_eq_of_b2l_eq ha ?_
    simp only [mapLanes_mem, b2l_l2b, iota_iota]

/-- Settles O19: the 200 bytes are the lanes. -/
theorem microOperationReadsOnlyTheLanes : Obligations.MicroOperationReadsOnlyTheLanes := by
  unfold Obligations.MicroOperationReadsOnlyTheLanes
  intro i s s' t t' hmicro hsame h h'
  rw [exec_microOp hmicro, Host.Outcome.next.injEq] at h h'
  have hlanes : b2l s.mem = b2l s'.mem := b2lOf_congr hsame
  rw [← h, ← h', mapLanes_mem, mapLanes_mem, hlanes]

/-! ## Linearity -/

theorem at2_xorLanes (A B : Lanes) (x y : Fin 5) : at2 (xorLanes A B) x y = at2 A x y ^^^ at2 B x y :=
  at2_ofCoords _ x y

theorem at2_zeroLanes (x y : Fin 5) : at2 zeroLanes x y = 0#64 := at2_ofCoords _ x y

theorem xorLanes_self (A : Lanes) : xorLanes A A = zeroLanes :=
  lanes_ext fun x y => by rw [at2_xorLanes, at2_zeroLanes, BitVec.xor_self]

theorem columnParity_xorLanes (A B : Lanes) (x : Fin 5) :
    (columnParity (xorLanes A B))[x] = (columnParity A)[x] ^^^ (columnParity B)[x] := by
  simp only [columnParity_getElem, at2_xorLanes]
  ac_rfl

theorem theta_xorLanes (A B : Lanes) : theta (xorLanes A B) = xorLanes (theta A) (theta B) := by
  refine lanes_ext fun x y => ?_
  rw [at2_xorLanes, at2_theta, at2_theta, at2_theta, at2_xorLanes, columnParity_xorLanes, columnParity_xorLanes,
    rol64_xor _ _ (by decide)]
  ac_rfl

theorem rho_xorLanes (A B : Lanes) : rho (xorLanes A B) = xorLanes (rho A) (rho B) := by
  refine lanes_ext fun x y => ?_
  rw [at2_xorLanes, at2_rho, at2_rho, at2_rho, at2_xorLanes, rol64_xor _ _ (Fin.isLt _)]

theorem pi_xorLanes (A B : Lanes) : pi (xorLanes A B) = xorLanes (pi A) (pi B) := by
  refine lanes_ext fun x y => ?_
  rw [at2_xorLanes, at2_pi, at2_pi, at2_pi, at2_xorLanes]

/-- A linear function maps the zero array to itself, since zero is an array XORed with itself. -/
theorem map_zeroLanes_of_linear {f : Lanes → Lanes} (h : ∀ A B, f (xorLanes A B) = xorLanes (f A) (f B)) :
    f zeroLanes = zeroLanes := by
  rw [← xorLanes_self zeroLanes, h, xorLanes_self, xorLanes_self]

theorem chi_zeroLanes : chi zeroLanes = zeroLanes :=
  lanes_ext fun x y => by simp only [at2_chi, at2_zeroLanes, BitVec.and_zero, BitVec.xor_zero]

/-- Settles O20: each step lane by lane. -/
theorem thetaRhoPiAreLinear : Obligations.ThetaRhoPiAreLinear := by
  unfold Obligations.ThetaRhoPiAreLinear
  exact ⟨fun A B => ⟨theta_xorLanes A B, rho_xorLanes A B, pi_xorLanes A B⟩, map_zeroLanes_of_linear theta_xorLanes,
    map_zeroLanes_of_linear rho_xorLanes, map_zeroLanes_of_linear pi_xorLanes, chi_zeroLanes⟩

/-! ## Set bits -/

/-- A rotation permutes the bits of a lane. -/
theorem laneBits_rol64 (v : Lane) (n : Fin 64) : laneBits (rol64 v n.val) = laneBits v := by
  unfold laneBits
  rw [← Equiv.sum_comp (Equiv.addRight n)]
  refine Finset.sum_congr rfl fun k _ => ?_
  have hmoved : (rol64 v n.val).getLsbD (Equiv.addRight n k).val = v.getLsbD k.val :=
    (rol64MovesEachBit v n.val k.val n.isLt k.isLt).1
  rw [hmoved]

theorem setBits_rho (A : Lanes) : setBits (rho A) = setBits A := by
  simp only [setBits, at2_rho, laneBits_rol64]

/-- PI permutes the lanes. -/
theorem setBits_pi (A : Lanes) : setBits (pi A) = setBits A := by
  simp only [setBits, ← Fintype.sum_prod_type']
  rw [← (Equiv.ofBijective piTarget piTarget_bijective).sum_comp]
  refine Finset.sum_congr rfl fun p _ => ?_
  exact congrArg laneBits (at2_pi_target A p.1 p.2)

/-- Settles O21: RHO permutes the bits of each lane, and PI the lanes. -/
theorem rhoAndPiKeepTheSetBits : Obligations.RhoAndPiKeepTheSetBits := by
  unfold Obligations.RhoAndPiKeepTheSetBits
  exact fun A => ⟨setBits_rho A, setBits_pi A⟩

/-! ## The two ROMs -/

/-- Settles O59: both generating algorithms are run. -/
theorem romsMatchTheirGenerators : Obligations.RomsMatchTheirGenerators := by
  unfold Obligations.RomsMatchTheirGenerators
  decide

end Sys2Proof.Machine

/-! PROOFS. The sequencer's 120 control words are one PERMUTE_STATE, and the micro-steps of a command come to its atomic
step (spec/40_permutation.md R97 to R101, spec/30_encoding.md R72, spec/70_reset_and_hazards.md R175). -/

namespace Sys2Proof.Machine

open Sys2Proof.Safety

/-! ## Runs of either machine -/

/-- `n` steps, with `start` saying what happens when a whole frame is taken: the common form of a run of `step` and of
`microStep`. -/
def runWith (start : Instr → State → Host.Outcome State Fault Refusal) : Nat → State → Host.Outcome State Fault Refusal
  | 0, s => .next s
  | n + 1, s => onNext (stepWith start s) (runWith start n)

theorem microRun_eq_runWith (n : Nat) (s : State) : microRun n s = runWith begin n s := by
  induction n generalizing s with
  | zero => rfl
  | succ n ih =>
    rw [microRun, runWith, funext ih]
    rfl

theorem coreRun_eq_runWith (n : Nat) (s : State) : Host.Core.run Sys2Proof.core n s = runWith exec n s := by
  induction n generalizing s with
  | zero => rfl
  | succ n ih =>
    rw [runWith]
    rcases hs : stepWith exec s with t | r | r
    · exact (coreRun_next hs).trans (ih t)
    · have hstop : Sys2Proof.core.step s = .fault r := hs
      simp only [Host.Core.run, hstop]
      rfl
    · have hstop : Sys2Proof.core.step s = .refused r := hs
      simp only [Host.Core.run, hstop]
      rfl

section Run

variable {start : Instr → State → Host.Outcome State Fault Refusal}

theorem runWith_next {n : Nat} {s t : State} (h : stepWith start s = .next t) :
    runWith start (n + 1) s = runWith start n t := by
  rw [runWith, h, onNext_next]

theorem runWith_add {a b : Nat} {s t : State} (h : runWith start a s = .next t) :
    runWith start (a + b) s = runWith start b t := by
  induction a generalizing s with
  | zero => cases h; rw [Nat.zero_add]
  | succ n ih =>
    rw [Nat.add_right_comm]
    rcases hs : stepWith start s with u | r | r
    · rw [runWith_next hs] at h ⊢
      exact ih h
    · rw [runWith, hs] at h
      cases h
    · rw [runWith, hs] at h
      cases h

/-! ## The sequencer -/

/-- The State with its lanes replaced and the sequencer at the given control word. -/
def withLanes (A : Lanes) (w : Option Byte) (s : State) : State := { s with mem := l2b A, seq := w }

theorem b2l_withLanes (A : Lanes) (w : Option Byte) (s : State) : b2l (withLanes A w s).mem = A := b2l_l2b A

/-- A step of the sequencer is its micro-operation on the lanes, and the next control word (R72). -/
theorem stepWith_microOpAt {s : State} (hreset : s.resetIn = false) {j : Fin 5} {r : Fin 24}
    (hseq : s.seq = some (seqWord j r)) :
    stepWith start s =
      .next (withLanes (laneFunction (microOpAt j r) (b2l s.mem)) (nextSeqWord (seqWord j r)) s) := by
  have hexec := exec_microOp (microOpAt_isCommand j r) s
  rw [stepWith_seq start hreset hseq, stepSeq_microOp (decodeSeq_seqWord j r) hexec]
  rfl

/-- The same, from a state in which the sequencer has already run. -/
theorem stepWith_withLanes {s : State} (hreset : s.resetIn = false) (A : Lanes) (j : Fin 5) (r : Fin 24) :
    stepWith start (withLanes A (some (seqWord j r)) s) =
      .next (withLanes (laneFunction (microOpAt j r) A) (nextSeqWord (seqWord j r)) s) := by
  rw [stepWith_microOpAt (s := withLanes A (some (seqWord j r)) s) hreset rfl, b2l_withLanes]
  rfl

theorem nextSeqWord_within {j j' : Fin 5} (h : j'.val = j.val + 1) (r : Fin 24) :
    nextSeqWord (seqWord j r) = some (seqWord j' r) := by
  rw [nextSeqWord_seqWord, if_pos (by omega), h]

/-- The control word of the first step of round `n`, none after the last round (R72). -/
def roundWord (n : Nat) : Option Byte := if n < 24 then some (seqWord 0 n) else none

theorem nextSeqWord_last (r : Fin 24) : nextSeqWord (seqWord (4 : Fin 5) r) = roundWord (r + 1) := by
  have hlast : r.val + 1 < 24 ↔ r.val < 23 := by omega
  rw [nextSeqWord_seqWord, if_neg (by decide), roundWord]
  simp only [hlast]

/-- The five control words of a round are ROUND (R97). -/
theorem runWith_round {s : State} (hreset : s.resetIn = false) {r : Fin 24} (hseq : s.seq = roundWord r) :
    runWith start 5 s = .next (withLanes (round (b2l s.mem) r) (roundWord (r + 1)) s) := by
  have hword : s.seq = some (seqWord (0 : Fin 5) r) := hseq.trans (if_pos r.isLt)
  rw [runWith_next (stepWith_microOpAt hreset hword), nextSeqWord_within (j' := 1) rfl,
    runWith_next (stepWith_withLanes hreset _ 1 r), nextSeqWord_within (j' := 2) rfl,
    runWith_next (stepWith_withLanes hreset _ 2 r), nextSeqWord_within (j' := 3) rfl,
    runWith_next (stepWith_withLanes hreset _ 3 r), nextSeqWord_within (j' := 4) rfl,
    runWith_next (stepWith_withLanes hreset _ 4 r), nextSeqWord_last]
  rfl

/-- The first `n + 1` rounds, as far as the recurrence of R98 has come. -/
theorem runWith_rounds {s : State} (hreset : s.resetIn = false) (hseq : s.seq = roundWord 0) {A : Nat → Lanes}
    (hstart : A 0 = b2l s.mem) (hround : ∀ r : Fin 24, A (r.val + 1) = round (A r.val) r) {n : Nat} (hn : n < 24) :
    runWith start (5 * (n + 1)) s = .next (withLanes (A (n + 1)) (roundWord (n + 1)) s) := by
  induction n with
  | zero => rw [hround ⟨0, hn⟩, hstart]; exact runWith_round (r := ⟨0, hn⟩) hreset hseq
  | succ n ih =>
    have hlast := runWith_round (start := start) (s := withLanes (A (n + 1)) (roundWord (n + 1)) s) (r := ⟨n + 1, hn⟩)
      hreset rfl
    rw [b2l_withLanes] at hlast
    rw [Nat.mul_succ, runWith_add (ih (by omega)), hlast, hround ⟨n + 1, hn⟩]
    rfl

/-- The 120 control words of a permutation are PERMUTE_STATE (R99), after which the sequencer is idle. -/
theorem runWith_permutation {s : State} (hreset : s.resetIn = false) (hseq : s.seq = some (seqWord 0 0)) :
    runWith start 120 s = .next { permuteState s with seq := none } := by
  obtain ⟨A, hstart, hround⟩ := Tests.witness_PermuteIsTwentyFourRounds (b2l s.mem)
  have hpermute : permute (b2l s.mem) = A 24 := hstart ▸ permuteIsTwentyFourRounds A hround
  have hrun := runWith_rounds (start := start) hreset hseq hstart hround (n := 23) (by decide)
  rw [permuteState, mapLanes, hpermute]
  exact hrun

end Run

/-- Settles O23: `runWith_permutation` for the machine whose commands are atomic. -/
theorem sequencerProgramIsPermuteState : Obligations.SequencerProgramIsPermuteState := by
  unfold Obligations.SequencerProgramIsPermuteState
  intro s hreset hseq
  rw [coreRun_eq_runWith]
  exact runWith_permutation hreset hseq

/-! ## The micro-steps of a command -/

/-- The micro-steps of a permutation just started. -/
theorem microRun_startSeq {s : State} (hreset : s.resetIn = false) (n : Nat) :
    microRun (120 + n) (startSeq s) = microRun n { permuteState s with seq := none } := by
  refine microRun_add 120 n (startSeq s) _ ?_
  rw [microRun_eq_runWith]
  exact runWith_permutation (s := startSeq s) hreset rfl

/-- A micro-step of a command in progress, its permutation over. -/
theorem microStep_running {s t : State} {c : Running} (hreset : s.resetIn = false) (hseq : s.seq = none)
    (hrunning : s.running = some c) (h : resume c s = .next t) : microStep s = .next t :=
  (stepWith_running begin hreset hseq hrunning).trans h

section Command

variable {s : State} (hreset : s.resetIn = false) (hseq : s.seq = none)
include hreset hseq

/-- The micro-steps of one payload byte come to ABSORB_BYTE: one for the store, and 120 more when the block is full
(R112). -/
theorem microRun_byte (hpos : s.ratePos.toNat < 136) (v : Byte) (rest : List Byte) (n : Nat) :
    microRun ((if s.ratePos.toNat = 135 then 121 else 1) + n) { s with running := some (.update (v :: rest)) } =
      microRun n { absorbByte s v with running := some (.update rest) } := by
  have hstep : microStep { s with running := some (.update (v :: rest)) } = .next (afterByte s v rest) :=
    microStep_running (s := { s with running := some (.update (v :: rest)) }) hreset hseq rfl
      (resume_update_cons (s := { s with running := some (.update (v :: rest)) }) hpos v rest)
  rw [absorbByte_eq hpos]
  by_cases hlast : s.ratePos.toNat = 135
  · have hcount : 121 + n = (120 + n) + 1 := by omega
    have hpermute := microRun_startSeq (s := clearCursor { storeByte s v with running := some (.update rest) }) hreset n
    rw [if_pos hlast, if_pos hlast, hcount, microRun_next hstep, afterByte, if_pos hlast, hpermute, ← hseq]
    rfl
  · rw [if_neg hlast, if_neg hlast, Nat.add_comm, microRun_next hstep, afterByte, if_neg hlast]

/-- The micro-steps of an accepted UPDATE, after the one that took it (R113, R175). -/
theorem microRun_update (hidle : s.running = none) (hpos : s.ratePos.toNat < 136) (data : List Byte) :
    microRun (data.length + 120 * ((s.ratePos.toNat + data.length) / 136) + 1)
        { s with running := some (.update data) } = .next (respond (.status .ok) (absorb data s)) := by
  induction data generalizing s with
  | nil =>
    have hstep := microStep_running (s := { s with running := some (.update []) }) hreset hseq rfl (resume_update_nil _)
    have hcount : 120 * (s.ratePos.toNat / 136) = 0 := by omega
    simp only [List.length_nil, Nat.add_zero, hcount]
    rw [microRun_next hstep, absorb_nil, ← hidle]
    rfl
  | cons v vs ih =>
    have hnext := absorbByte_ratePos hpos v
    have hcount : (v :: vs).length + 120 * ((s.ratePos.toNat + (v :: vs).length) / 136) + 1
        = (if s.ratePos.toNat = 135 then 121 else 1)
          + (vs.length + 120 * (((absorbByte s v).ratePos.toNat + vs.length) / 136) + 1) := by
      rw [hnext, List.length_cons]
      split <;> omega
    rw [hcount, microRun_byte hreset hseq hpos, absorb_cons]
    refine ih ?_ ?_ ?_ (by omega)
    · rw [absorbByte_resetIn, hreset]
    · rw [absorbByte_seq, hseq]
    · rw [absorbByte_running, hidle]

omit hreset in
/-- An idle engine made idle is as it was. -/
theorem setIdle_eq_self (hidle : s.running = none) : { s with seq := none, running := none } = s := by
  rw [← hseq, ← hidle]

/-- The micro-steps of a first FINALIZE, after the one that took and padded (R119). -/
theorem microRun_finalize (hidle : s.running = none) :
    microRun 121 (startSeq { pad s with running := some .finalize }) = .next
      (respond (.digest (digest (setFinalized (permuteState (pad s))))) (setFinalized (permuteState (pad s)))) := by
  have hend := microStep_running (s := { permuteState { pad s with running := some .finalize } with seq := none })
    hreset rfl rfl (resume_finalize _)
  have hdone : { permuteState (pad s) with seq := none, running := none } = permuteState (pad s) :=
    setIdle_eq_self hseq hidle
  have hpermute := microRun_startSeq (s := { pad s with running := some .finalize }) hreset (0 + 1)
  rw [show 121 = 120 + (0 + 1) from rfl, hpermute, microRun_next hend, ← hdone]
  rfl

end Command

theorem microSteps_eq_one {i : Instr} {s : State} (h : OneMicroStep i s) : microSteps i s = 1 := by
  cases i with
  | update data => exact if_pos (finalized_of_oneMicroStep h rfl (by simp))
  | finalize => exact if_pos (finalized_of_oneMicroStep h rfl (by simp))
  | _ => rfl

/-- In an idle engine the micro-steps of an instruction after the first come to its atomic effect. -/
theorem microRun_after_begin {s : State} (hidle : Idle s) (hpos : s.ratePos.toNat < 136) (i : Instr) :
    ∃ n t, microSteps i s = n + 1 ∧ begin i s = .next t ∧ microRun n t = exec i s := by
  obtain hwhole | ⟨hflag, rfl | ⟨data, rfl⟩⟩ := oneMicroStep_or_absorbing i s
  · obtain ⟨t, ht⟩ := exec_completes hpos i
    exact ⟨0, t, microSteps_eq_one hwhole, (begin_eq_exec hwhole).trans ht, ht.symm⟩
  · refine ⟨121, _, by simp [microSteps, hflag], begin_finalize_absorbing hflag hpos, ?_⟩
    rw [microRun_finalize hidle.noReset hidle.noSeq hidle.noRunning, exec_finalize_absorbing hflag hpos]
  · refine ⟨data.length + 120 * ((s.ratePos.toNat + data.length) / 136) + 1, _, by simp [microSteps, hflag],
      begin_update_absorbing hflag data, ?_⟩
    rw [microRun_update hidle.noReset hidle.noSeq hidle.noRunning hpos, exec_update_absorbing hflag hpos]

/-- Settles O55: both machines take the frame, and the micro-steps after that come to the atomic effect. -/
theorem microStepsComeToTheAtomicCommand : Obligations.MicroStepsComeToTheAtomicCommand := by
  unfold Obligations.MicroStepsComeToTheAtomicCommand
  intro s i rest hinv hidle hcmd hwf hstream
  have hidle' : Idle { s with rx := [], cmdIn := rest } := ⟨hidle.noReset, hidle.noSeq, hidle.noRunning⟩
  obtain ⟨n, t, hn, hbegin, hrun⟩ := microRun_after_begin hidle' (Nat.lt_succ_of_le hinv.cursor) i
  have hcount : microSteps i s = n + 1 := hn
  have htake : microStep s = .next t := (stepWith_encode hidle hcmd hwf hstream).trans hbegin
  rw [hcount, microRun_next htake, hrun, step, stepWith_encode hidle hcmd hwf hstream]

end Sys2Proof.Machine
